-- ==== Sys2Proof/Word.lean ====
section
/-! DEFINITION. The fixed widths of the engine (00_scope.md R6): a byte is 8 bits, a CRC value and a
cell of the table `T` are 16 bits, a hex digit stands for 4 bits.  Everything is unsigned. -/

namespace Sys2Proof

/-- One 8-bit cell of `IBUF` or `OBUF`: a data byte or a character code (R6, R75). -/
abbrev Byte := BitVec 8

/-- A 16-bit value: `ARG`, `RES`, a CRC value, a cell of `T` (R6). -/
abbrev Word := BitVec 16

/-- Half a byte: what one hex digit stands for (R67, R69). -/
abbrev Nibble := BitVec 4

end Sys2Proof
end

