-- ==== Sys2Proof/Config.lean ====
section
/-! DEFINITION. What is fixed when an engine is built (the parameters `ICAP`, `OCAP`, `WS` of 00_scope.md
section 3, R4, R5) and the free values: what the data registers and the input cells hold after a reset, which
10_state.md R30 leaves arbitrary.  No free value has a body: nothing in Lean can evaluate one. -/

namespace Sys2Proof

/-- The capacity of a buffer: a number of cells, or `none` for ∞ (unbounded), as R4 allows. -/
abbrev Cap := Option Nat

/-- The build-time parameters (R4, R5).  They are data, so that a claim over every state holds for every
choice of them; no step changes them (R26). -/
structure Params where
  /-- `ICAP`, the number of cells of the input buffer. -/
  icap : Cap
  /-- `OCAP`, the number of cells of the output buffer; legal from 2 up (`Params.wellFormed`). -/
  ocap : Cap
  /-- `WS`, the set of whitespace codes, in rising order with no repeats (assumption 2). -/
  ws : List Byte
  deriving DecidableEq, Repr

/-- The defaults of 00_scope.md section 3: `ICAP = OCAP = ∞`, `WS = {0x09, 0x20}` (R4, R5). -/
def Params.standard : Params := { icap := none, ocap := none, ws := [0x09, 0x20] }

namespace Config

/-- FREE VALUE: what `ARG` holds after the `k`-th reset, the same for every engine (R30, U4; assumptions 3, 15). -/
opaque argAtReset : Nat → Word

/-- FREE VALUE: what `RES` holds after the `k`-th reset, the same for every engine (R30, U4; assumptions 3, 15). -/
opaque resAtReset : Nat → Word

/-- FREE VALUE: what the cell `IBUF[i]` holds after the `k`-th reset, until the host writes it
(R30, U4; assumptions 4, 15), the same for every engine.  The first argument is `k`, the second `i`. -/
opaque ibufAtReset : Nat → Nat → Byte

end Config

end Sys2Proof
end

