-- ==== Sys2Proof/Machine/Fields.lean ====
section
/-! DEFINITION. Bit fields and capacities: the low and high byte of a 16-bit value, the two nibbles of a byte,
joining two bytes (00_scope.md section 5.1), and the two comparisons with a capacity that may be ∞ (R4). -/

namespace Sys2Proof.Machine

/-- The low byte `v[7:0]` of a 16-bit value. -/
def lowByte (v : Word) : Byte := v.extractLsb' 0 8

/-- The high byte `v[15:8]` of a 16-bit value. -/
def highByte (v : Word) : Byte := v.extractLsb' 8 8

/-- `{hi, lo} = zext_16(hi) << 8 OR zext_16(lo)` (00_scope.md section 5.1). -/
def joinBytes (hi lo : Byte) : Word := hi.setWidth 16 <<< 8 ||| lo.setWidth 16

/-- The high nibble `b[7:4]` of a byte. -/
def highNibble (b : Byte) : Nibble := b.extractLsb' 4 4

/-- The low nibble `b[3:0]` of a byte. -/
def lowNibble (b : Byte) : Nibble := b.extractLsb' 0 4

/-- `n` cells fit in a buffer of this capacity: `n ≤ cap`, always so at ∞ (R4, R154). -/
def fits : Cap → Nat → Bool
  | none, _ => true
  | some c, n => decide (n ≤ c)

/-- `i` is the index of a cell of a buffer of this capacity: `i < cap` (R42, R43). -/
def inSpace : Cap → Nat → Bool
  | none, _ => true
  | some c, i => decide (i < c)

end Sys2Proof.Machine
end

