-- ==== Sys2Proof/Machine/Chars.lean ====
section
/-! DEFINITION. Characters (30_encoding.md part B): the value of a hex digit, a pair of digits, whitespace, the
uppercase digit of a value, a byte as two characters, a 16-bit value as four. -/

namespace Sys2Proof.Machine

/-- `hexval(c)`: the value 0 to 15 of a hex digit of either case, `none` for the other 234 codes (R66). -/
def hexval (c : Byte) : Option Byte :=
  if 0x30 ≤ c ∧ c ≤ 0x39 then some (c - 0x30)
  else if 0x41 ≤ c ∧ c ≤ 0x46 then some (c - 0x41 + 10)
  else if 0x61 ≤ c ∧ c ≤ 0x66 then some (c - 0x61 + 10)
  else none

/-- `pairval(c0, c1)`: the byte a pair of characters stands for, high nibble first (R67). -/
def pairval (c0 c1 : Byte) : Option Byte :=
  match hexval c0, hexval c1 with
  | some hi, some lo => some (hi * 16 + lo)
  | _, _ => none

/-- The space 0x20 (R71, R75). -/
def space : Byte := 0x20

/-- A whitespace character is one whose code is in `WS` (R68). -/
def isWhitespace (ws : List Byte) (c : Byte) : Bool := ws.contains c

/-- `hexdigit(n)`: the uppercase digit (R69). -/
def hexdigit (n : Nibble) : Byte :=
  if n ≤ 9 then 0x30 + n.setWidth 8 else 0x41 + (n.setWidth 8 - 10)

/-- `hex2(b)`: a byte as two characters, high nibble first, leading zero always present (R70, R72). -/
def hex2 (b : Byte) : List Byte := [hexdigit (highNibble b), hexdigit (lowNibble b)]

/-- `hex4(v)`: a 16-bit value as four uppercase digits, most significant first.  Notation only: no command
produces it (R72). -/
def hex4 (v : Word) : List Byte :=
  [hexdigit (v.extractLsb' 12 4), hexdigit (v.extractLsb' 8 4), hexdigit (v.extractLsb' 4 4), hexdigit (v.extractLsb' 0 4)]

/-- One of the 16 uppercase digits (R69, R76). -/
def isUpperDigit (c : Byte) : Bool := decide (0x30 ≤ c ∧ c ≤ 0x39) || decide (0x41 ≤ c ∧ c ≤ 0x46)

/-- `(0x20 pair)*` (R76). -/
def isCanonicalTail : List Byte → Bool
  | [] => true
  | sp :: c0 :: c1 :: s => sp == space && isUpperDigit c0 && isUpperDigit c1 && isCanonicalTail s
  | _ => false

/-- The canonical text form: empty, or `pair (0x20 pair)*`, every digit uppercase (R76). -/
def isCanonicalText : List Byte → Bool
  | [] => true
  | c0 :: c1 :: s => isUpperDigit c0 && isUpperDigit c1 && isCanonicalTail s
  | _ => false

end Sys2Proof.Machine
end

