-- ==== Sys2Proof/Syntax.lean ====
section
/-! DEFINITION. The six commands (30_encoding.md R60), one constructor for each row of
spec/opcode_table.json.  A command has no operands in its word (R62), so no constructor has a field. -/

namespace Sys2Proof

/-- A command of the engine (R60). -/
inductive Instr where
  /-- 0x01 `PARSE`: hex text to bytes (41_hex_codec.md R105). -/
  | parse
  /-- 0x02 `FORMAT`: bytes to hex text (41_hex_codec.md R110). -/
  | format
  /-- 0x03 `CRC`: CRC-16/MODBUS of the input bytes (42_crc_engine.md R124). -/
  | crc
  /-- 0x04 `WIRE`: the two wire-form bytes of `ARG` (42_crc_engine.md R127). -/
  | wire
  /-- 0x05 `SWAP`: the swapped form of `ARG` (42_crc_engine.md R131). -/
  | swap
  /-- 0x06 `FULLCMD`: parse, CRC, append, format (43_pipeline.md R143). -/
  | fullcmd
  deriving DecidableEq, Repr

end Sys2Proof
end

