-- ==== Sys2Proof/WellFormed.lean ====
section
/-! DEFINITION. Well-formedness.  A command has no operand (R62), so every `Instr` is well formed.  The one term
of the model that can be ill formed is a choice of the build-time parameters, which R4, R5 and 00_scope.md
section 3 constrain. -/

namespace Sys2Proof

/-- Every command is well formed: its whole word is the operation code (R61, R62). -/
def Instr.wellFormed : Instr → Bool
  | .parse | .format | .crc | .wire | .swap | .fullcmd => true

/-- `OCAP ≥ 2` or `OCAP = ∞` (R4): the two cells of WIRE's result always fit. -/
def Params.ocapLegal (p : Params) : Bool := Machine.fits p.ocap 2

/-- `WS` must contain the space and the tab (R5). -/
def Params.wsHasBlanks (p : Params) : Bool := p.ws.contains 0x20 && p.ws.contains 0x09

/-- `WS` must contain none of the 22 hex digit codes (00_scope.md section 3). -/
def Params.wsHasNoDigit (p : Params) : Bool := p.ws.all (fun c => (Machine.hexval c).isNone)

/-- `WS` is written as a set: rising order, no repeats (assumption 2). -/
def Params.wsIsSet (p : Params) : Bool := decide (p.ws.Pairwise (· < ·))

/-- A legal choice of the parameters. -/
def Params.wellFormed (p : Params) : Bool :=
  p.ocapLegal && p.wsHasBlanks && p.wsHasNoDigit && p.wsIsSet

end Sys2Proof
end

