-- ==== Sys2Proof/Decode.lean ====
section
/-! DEFINITION. The decoder and the encoder of the one format `CMD8` (30_encoding.md R60, R61, R63, R64): a
command is one byte, all eight bits of it the operation code. -/

namespace Sys2Proof

/-- Why bytes hold no command. -/
inductive DecodeError where
  /-- There is no byte. -/
  | noByte
  /-- The code is reserved: 0x00 or 0x07 to 0xFF (R63). -/
  | reserved (code : Byte)
  deriving DecidableEq, Repr

/-- One row of the opcode table: `code AND mask = pattern`. -/
structure OpcodeRow where
  instr : Instr
  mask : Byte
  pattern : Byte
  deriving DecidableEq, Repr

/-- The six codes of R60, each compared under the mask 0xFF (R61). -/
def opcodeRows : List OpcodeRow :=
  [ ⟨.parse, 0xFF, 0x01⟩, ⟨.format, 0xFF, 0x02⟩, ⟨.crc, 0xFF, 0x03⟩,
    ⟨.wire, 0xFF, 0x04⟩, ⟨.swap, 0xFF, 0x05⟩, ⟨.fullcmd, 0xFF, 0x06⟩ ]

/-- The command a byte written to `CMD` stands for; `none` for the 250 reserved codes (R61, R63). -/
def decodeByte (code : Byte) : Option Instr :=
  (opcodeRows.find? (fun r => code &&& r.mask == r.pattern)).map (·.instr)

/-- The decoder on any bytes: the first byte's command and the bytes after it (R61, R64). -/
def decode : List Byte → Except DecodeError (Instr × List Byte)
  | [] => .error .noByte
  | code :: rest =>
    match decodeByte code with
    | some i => .ok (i, rest)
    | none => .error (.reserved code)

/-- The code of a command (R60). -/
def encodeByte : Instr → Byte
  | .parse => 0x01
  | .format => 0x02
  | .crc => 0x03
  | .wire => 0x04
  | .swap => 0x05
  | .fullcmd => 0x06

/-- The bytes of a command: one (R61). -/
def encode (i : Instr) : List Byte := [encodeByte i]

/-- The bytes of the number `w` of `nbits` bits, the least significant first; at least one byte. -/
def wordBytes (nbits w : Nat) : List Byte :=
  (List.range (max 1 ((nbits + 7) / 8))).map (fun k => BitVec.ofNat 8 (w % 2 ^ nbits / 256 ^ k))

/-- The command of an opcode-table word: the decoder's answer when it uses up the word (R64: there is no
command longer than one byte). -/
def decodeTableWord (nbits w : Nat) : Option Instr :=
  match decode (wordBytes nbits w) with
  | .ok (i, []) => some i
  | _ => none

end Sys2Proof
end

