-- ==== Sys2Proof/Machine/Script.lean ====
section
/-! DEFINITION. What the outside world does to the engine: the host's nine actions (10_state.md R13), the lines of
its listings (30_encoding.md R65, 95_test_vectors.md section 4), the reset event (70_reset_and_hazards.md R180), and
the answers its reads get. -/

namespace Sys2Proof.Machine

/-- A host action: exactly those of R13. -/
inductive HostAction where
  /-- `HWriteI(i, v)`: `IBUF[i] <- v`, allowed when `i < ICAP`. -/
  | writeI (i : Nat) (v : Byte)
  /-- `HSetILen(n)`: `ILEN <- n`, allowed when `n ≤ ICAP`. -/
  | setILen (n : Nat)
  /-- `HSetArg(v)`: `ARG <- v`. -/
  | setArg (v : Word)
  /-- `HIssue(code)`: the write to `CMD` that runs one command (R23, R61). -/
  | issue (code : Byte)
  /-- `HReadO(i)`: returns `OBUF[i]`, allowed when `i < OLEN`. -/
  | readO (i : Nat)
  /-- `HReadOLen()`. -/
  | readOLen
  /-- `HReadRes()`. -/
  | readRes
  /-- `HReadStatus()`. -/
  | readStatus
  /-- `HReadT(i)`: returns `T[i]`, allowed when `i ≤ 255`. -/
  | readT (i : Nat)
  deriving DecidableEq, Repr

/-- A line of the outside world's script: a host action, a line of R65, a host decision of 95_test_vectors.md
section 4, or the reset event of R180. -/
inductive ScriptLine where
  /-- One host action. -/
  | act (a : HostAction)
  /-- A mnemonic line: `HIssue` of the command's code (R65). -/
  | command (i : Instr)
  /-- `.cmd 0xNN`: `HIssue` of any code, reserved ones included (R65). -/
  | rawCommand (code : Byte)
  /-- `LDTXT "text"`: write the character codes and set `ILEN` (R65). -/
  | ldtxt (text : List Char)
  /-- `LDBYTES hh …`: write the bytes and set `ILEN` (R65). -/
  | ldbytes (bytes : List Byte)
  /-- `LDARG 0xNNNN` (R65). -/
  | ldarg (v : Word)
  /-- `MOVOI`: copy the output sequence to the input sequence (R65). -/
  | movoi
  /-- `LDARGRES`: copy `RES` to `ARG` (R65). -/
  | ldargres
  /-- `if STATUS ≠ 0 stop`: the host reads `STATUS` and goes no further when it is not 0x00
  (95_test_vectors.md section 4). -/
  | stopIfError
  /-- The reset event, from outside the engine, between two steps (R180).  No host action is one. -/
  | reset
  deriving DecidableEq, Repr

/-- What a host read returned (R13). -/
inductive Reply where
  /-- `HReadO(i)` returned `v`. -/
  | outCell (i : Nat) (v : Byte)
  /-- `HReadOLen()` returned `n`. -/
  | outLen (n : Nat)
  /-- `HReadRes()` returned `v`. -/
  | res (v : Word)
  /-- `HReadStatus()` returned the 8 bits `v`. -/
  | status (v : Byte)
  /-- `HReadT(i)` returned `v`. -/
  | tableCell (i : Nat) (v : Word)
  deriving DecidableEq, Repr

end Sys2Proof.Machine
end

