-- ==== Sys2Proof/Machine/State.lean ====
section
/-! DEFINITION. The state of the engine (10_state.md R10 to R31), what stops a step, and the state after reset. -/

namespace Sys2Proof.Machine

/-- The three memory spaces (20_memory.md R40). -/
inductive Space where
  /-- The lookup table, 256 cells of 16 bits (R41). -/
  | T
  /-- The input buffer `IBUF` (R42). -/
  | I
  /-- The output buffer `OBUF` (R43). -/
  | O
  deriving DecidableEq, Repr

/-- The two causes of `InvalidFormat` (60_exceptions.md R151). -/
inductive FormatCause where
  /-- "length not divisible by two" (R102). -/
  | oddLength
  /-- "invalid hex digit" (R103). -/
  | invalidDigit
  deriving DecidableEq, Repr

/-- The errors a command can raise (60_exceptions.md R150).  An error records nothing else (R152). -/
inductive EngineError where
  /-- `InvalidFormat(cause)`, raised by PARSE and FULLCMD. -/
  | invalidFormat (cause : FormatCause)
  /-- `Capacity`, raised by PARSE, FORMAT and FULLCMD (R154). -/
  | capacity
  /-- `IllegalCommand`, raised by the decoder on a reserved code (R155). -/
  | illegalCommand
  deriving DecidableEq, Repr

/-- `STATUS`: one of exactly five values (R24, U7); `Status.word` gives its 8 bits. -/
inductive Status where
  /-- 0x00: the last command succeeded, or none has run since reset. -/
  | ok
  /-- The last command raised this error. -/
  | failed (e : EngineError)
  deriving DecidableEq, Repr

/-- The written cells of the input buffer: pairs of an index and a byte, indices strictly rising
(`Memory.wf`).  A cell that is not listed has not been written since reset. -/
abbrev Memory := List Host.Cell

/-- The state.  `T` is a constant (R94: "A model defines `T` as the function `table` or as the literal list"),
`CMD` and `R` hold no value between commands (R20, R23): none of the three is a field. -/
structure State where
  /-- The build-time parameters `ICAP`, `OCAP`, `WS` (R4, R5); nothing changes them (R26). -/
  params : Params
  /-- `IBUF` (R14): the cells written since reset; `State.readI` reads any cell. -/
  ibuf : Memory
  /-- `ILEN` (R15), a natural number. -/
  ilen : Nat
  /-- `ARG` (R16). -/
  arg : Word
  /-- `OUT` (R18, R19, R22): the cells `OBUF[0 .. OLEN-1]`; `OLEN` is its length (`State.olen`). -/
  out : List Byte
  /-- `RES` (R21). -/
  res : Word
  /-- `STATUS` (R24). -/
  status : Status
  /-- MODEL'S OWN: what the outside world does next, in order (assumption 5). -/
  script : List ScriptLine
  /-- MODEL'S OWN: what the host's reads returned, newest first (assumption 6). -/
  replies : List Reply
  /-- MODEL'S OWN: how many reset events there have been; it picks the free values of R30 (assumption 3). -/
  resets : Nat
  deriving DecidableEq, Repr

/-- What stops a step with a fault.  No command raises one: the engine's errors are reported in `STATUS` and the
machine goes on (R159, R163). -/
inductive Fault where
  /-- Raised by the host actions `HWriteI`, `HReadO` and `HReadT` on an index of no cell of the space (R13, R45,
  U8: "no such move").  SAFE: the model stops where the host has no such action. -/
  | outsideSpace (space : Space) (index : Nat)
  deriving DecidableEq, Repr

/-- What a step refuses.  No command raises one. -/
inductive Refusal where
  /-- Raised by an arm of `exec` whose instruction has no meaning yet.  SAFE.  No arm raises it now. -/
  | notModelled (mnemonic : String)
  /-- Raised by `HSetILen(n)` with `n > ICAP` (R13, U8: the host has no such action).  SAFE. -/
  | lengthAboveCapacity (n : Nat)
  /-- Raised by `HReadO(i)` with `OLEN ≤ i < OCAP`: the cell's value is unspecified and the host must not read it
  (R22, R187, U5).  SAFE. -/
  | unspecifiedOutputCell (index : Nat)
  /-- Raised by `LDTXT` with a character whose code needs more than 8 bits (U11: not representable).  SAFE. -/
  | characterNotRepresentable
  /-- Raised by `System.step` on the index of no engine of the system (R168).  SAFE. -/
  | noSuchEngine (k : Nat)
  deriving DecidableEq, Repr

/-- The state the `k`-th reset leaves (R29, R30, R180): lengths 0, `STATUS` 0x00, no input cell written, `ARG` and
`RES` at free values.  The outside world (script, replies) is no part of the engine and is kept.
DESIGN CHOICE (assumptions 3, 4, 15): the free values depend on `k` alone, so two states left by a `k`-th reset, in two
runs or of two engines of one `System`, provably hold the same `ARG`, `RES` and unwritten cells; R30 leaves the values
of each engine arbitrary and does not promise that they agree (unsafe). -/
def State.resetWith (p : Params) (k : Nat) (script : List ScriptLine) (replies : List Reply) : State :=
  { params := p, ibuf := [], ilen := 0, arg := Config.argAtReset k, out := [], res := Config.resAtReset k,
    status := .ok, script := script, replies := replies, resets := k }

/-- The machine right after reset, built with the default parameters, the outside world doing nothing
(R29, R30, R181). -/
def State.reset : State := State.resetWith Params.standard 0 [] []

end Sys2Proof.Machine
end

