-- ==== Sys2Proof/Machine/Flags.lean ====
section
/-! DEFINITION. The layout of `STATUS` (10_state.md R24), the engine's only flag register (R25). -/

namespace Sys2Proof.Machine

/-- `STATUS.ERR`, bits 1:0. -/
def Status.err : Status → BitVec 2
  | .ok => 0
  | .failed (.invalidFormat _) => 1
  | .failed .capacity => 2
  | .failed .illegalCommand => 3

/-- `STATUS.CAUSE`, bits 3:2. -/
def Status.cause : Status → BitVec 2
  | .failed (.invalidFormat .oddLength) => 1
  | .failed (.invalidFormat .invalidDigit) => 2
  | _ => 0

/-- The 8 bits of `STATUS`: bits 7:4 read as 0, then `CAUSE`, then `ERR`. -/
def Status.word (st : Status) : Byte := (0 : BitVec 4) ++ st.cause ++ st.err

end Sys2Proof.Machine
end

