-- ==== Sys2Proof/Machine/Operands.lean ====
section
/-! DEFINITION. The operands of the commands, all implicit (30_encoding.md R62): the input sequence `IN` and `ARG`;
and the reads of single cells. -/

namespace Sys2Proof.Machine

/-- The byte a written cell holds; `none` when nothing has written the cell since reset. -/
def Memory.read : Memory → Nat → Option Byte
  | [], _ => none
  | (b, v) :: m, a => if a = b then some v else Memory.read m a

/-- `IBUF[i]`: what the host last wrote there, or the arbitrary value the cell holds since reset (R13, R30). -/
def State.readI (s : State) (i : Nat) : Byte :=
  (s.ibuf.read i).getD (Config.ibufAtReset s.resets i)

/-- `IN = [IBUF[0], …, IBUF[ILEN - 1]]` (R15). -/
def State.input (s : State) : List Byte := (List.range s.ilen).map s.readI

/-- `OLEN`, the length of `OUT` (R19). -/
def State.olen (s : State) : Nat := s.out.length

/-- `OBUF[i]` for `i < OLEN`; `none` for the cells whose value is unspecified (R22). -/
def State.readO (s : State) (i : Nat) : Option Byte := s.out[i]?

end Sys2Proof.Machine
end

