-- ==== Sys2Proof/Machine/Ops.lean ====
section
/-! DEFINITION. The operations the commands and the host actions are built from: writing a cell, delivering a result,
raising an error (the engine's only exception, 60_exceptions.md R156 to R158), the reset event, and the host's
writes. -/

namespace Sys2Proof.Machine

/-- Writes one cell, keeping the indices strictly rising. -/
def Memory.write : Memory → Nat → Byte → Memory
  | [], a, v => [(a, v)]
  | (b, w) :: m, a, v =>
    if a < b then (a, v) :: (b, w) :: m
    else if a = b then (a, v) :: m
    else (b, w) :: Memory.write m a v

/-- The canonical form: indices strictly rising.  An unlisted cell has no written value, so no entry equals what
an unlisted cell reads as, and equal memories are equal lists. -/
abbrev Memory.wf (m : Memory) : Prop := m.Pairwise (fun x y => x.1 < y.1)

/-- `OUT <- xs`, then `STATUS <- 0x00` (00_scope.md section 5.3, R25). -/
def writeOut (xs : List Byte) (s : State) : State := { s with out := xs, status := .ok }

/-- `RES <- v`, then `STATUS <- 0x00` (R21, R25). -/
def writeRes (v : Word) (s : State) : State := { s with res := v, status := .ok }

/-- TAKING AN EXCEPTION: `OLEN <- 0`, `STATUS <-` the error, nothing else changes (R156, R157, R158).  No handler is
entered and there is nothing to return from (R159, R163). -/
def raiseError (e : EngineError) (s : State) : State := { s with out := [], status := .failed e }

/-- Delivers a sequence result, or raises `Capacity` when it is longer than `OCAP` cells, before any cell is
written (R154, R157). -/
def deliver (xs : List Byte) (s : State) : State :=
  if fits s.params.ocap xs.length then writeOut xs s else raiseError .capacity s

/-- Delivers the result of a stage that may raise `InvalidFormat`; that error comes before `Capacity` (R156, R162). -/
def deliverResult (r : Except FormatCause (List Byte)) (s : State) : State :=
  match r with
  | .error c => raiseError (.invalidFormat c) s
  | .ok xs => deliver xs s

/-- The effect of `HWriteI(i, v)` (R13). -/
def hostWriteI (i : Nat) (v : Byte) (s : State) : State := { s with ibuf := s.ibuf.write i v }

/-- The effect of `HSetILen(n)` (R13). -/
def hostSetILen (n : Nat) (s : State) : State := { s with ilen := n }

/-- The effect of `HSetArg(v)` (R13). -/
def hostSetArg (v : Word) (s : State) : State := { s with arg := v }

/-- A host read returned `r`; nothing else changes (R50). -/
def hostReceive (r : Reply) (s : State) : State := { s with replies := r :: s.replies }

/-- The outside world goes on with `rest`. -/
def withScript (rest : List ScriptLine) (s : State) : State := { s with script := rest }

/-- The reset event: every piece of the engine's state at its reset value, nothing surviving (R180). -/
def resetEvent (s : State) : State := State.resetWith s.params (s.resets + 1) s.script s.replies

end Sys2Proof.Machine
end

