-- ==== Sys2Proof/Machine/CrcEngine.lean ====
section
/-! DEFINITION. The CRC engine (42_crc_engine.md): `computeCrc16Modbus`, the wire form and the swapped form, and the
meanings of CRC, WIRE and SWAP. -/

namespace Sys2Proof.Machine

/-- `crcStep(R, b)`: one table lookup (R121). -/
def crcStep (R : Word) (b : Byte) : Word :=
  let index : Byte := (R ^^^ b.setWidth 16).setWidth 8
  (R >>> 8) ^^^ readT index

/-- `computeCrc16Modbus(B)`: the register starts at 0xFFFF and takes the bytes in order; no final XOR (R120). -/
def computeCrc16Modbus (B : List Byte) : Word := B.foldl crcStep 0xFFFF

/-- `toWireForm(c) = (c[7:0], c[15:8])` (R126). -/
def toWireForm (c : Word) : Byte × Byte := (lowByte c, highByte c)

/-- The wire form laid out in cells: the low byte at the lower index (R47, R73). -/
def wireBytes (c : Word) : List Byte := [(toWireForm c).1, (toWireForm c).2]

/-- `swapped(c) = ((c << 8) OR (c >> 8)) AND 0xFFFF` (R129). -/
def swapped (c : Word) : Word := (c <<< 8) ||| (c >>> 8)

/-- CRC (R124). -/
def execCrc (s : State) : Host.Outcome State Fault Refusal :=
  .next (writeRes (computeCrc16Modbus s.input) s)

/-- WIRE (R127): no capacity test, since `OCAP ≥ 2`. -/
def execWire (s : State) : Host.Outcome State Fault Refusal :=
  .next (writeOut (wireBytes s.arg) s)

/-- SWAP (R131). -/
def execSwap (s : State) : Host.Outcome State Fault Refusal :=
  .next (writeRes (swapped s.arg) s)

end Sys2Proof.Machine
end

