-- ==== Sys2Proof/Machine/HexCodec.lean ====
section
/-! DEFINITION. The hex codec (41_hex_codec.md): the functions `strip`, `parseHex` and `formatHex`, and the meanings
of PARSE and FORMAT. -/

namespace Sys2Proof.Machine

/-- `strip(s)`: every whitespace character removed, the others kept in order (R101). -/
def strip (ws : List Byte) (s : List Byte) : List Byte := s.filter (fun c => !isWhitespace ws c)

/-- The loop of R100 over the pairs of a stripped text.  A lone last character is never reached from `parseHex`,
which has tested the length before (R102). -/
def parsePairs : List Byte → Except FormatCause (List Byte)
  | [] => .ok []
  | [_] => .error .oddLength
  | c0 :: c1 :: u =>
    match pairval c0 c1 with
    | none => .error .invalidDigit
    | some v =>
      match parsePairs u with
      | .error c => .error c
      | .ok B => .ok (v :: B)

/-- `parseHex(s)`: strip, test the length, then convert the pairs; the first stage that fails decides (R100). -/
def parseHex (ws : List Byte) (s : List Byte) : Except FormatCause (List Byte) :=
  if (strip ws s).length % 2 = 1 then .error .oddLength else parsePairs (strip ws s)

/-- The pairs after the first, each with its space in front (R107). -/
def spacedPairs : List Byte → List Byte
  | [] => []
  | b :: B => space :: (hex2 b ++ spacedPairs B)

/-- `formatHex(B)`: uppercase pairs joined by single spaces (R107, R108). -/
def formatHex : List Byte → List Byte
  | [] => []
  | b :: B => hex2 b ++ spacedPairs B

/-- PARSE (R105). -/
def execParse (s : State) : Host.Outcome State Fault Refusal :=
  .next (deliverResult (parseHex s.params.ws s.input) s)

/-- FORMAT (R110). -/
def execFormat (s : State) : Host.Outcome State Fault Refusal :=
  .next (deliver (formatHex s.input) s)

end Sys2Proof.Machine
end

