-- ==== Sys2Proof/Machine/Pipeline.lean ====
section
/-! DEFINITION. The end-to-end pipeline (43_pipeline.md): `buildFullCommand` and the meaning of FULLCMD. -/

namespace Sys2Proof.Machine

/-- `buildFullCommand(s)`: parse, compute the CRC of the parsed bytes, append its wire form, format; a parse error
ends it with that error (R140, R141). -/
def buildFullCommand (ws : List Byte) (s : List Byte) : Except FormatCause (List Byte) :=
  match parseHex ws s with
  | .error c => .error c
  | .ok B => .ok (formatHex (B ++ wireBytes (computeCrc16Modbus B)))

/-- FULLCMD (R143).  The CRC is not written to `RES`. -/
def execFullcmd (s : State) : Host.Outcome State Fault Refusal :=
  .next (deliverResult (buildFullCommand s.params.ws s.input) s)

end Sys2Proof.Machine
end

