-- ==== Sys2Proof/Machine/Dispatch.lean ====
section
/-! DEFINITION. One arm for each command: its meaning. -/

namespace Sys2Proof.Machine

def exec (i : Instr) (s : State) : Host.Outcome State Fault Refusal :=
  match i with
  | .parse => Sys2Proof.Machine.execParse s
  | .format => Sys2Proof.Machine.execFormat s
  | .crc => Sys2Proof.Machine.execCrc s
  | .wire => Sys2Proof.Machine.execWire s
  | .swap => Sys2Proof.Machine.execSwap s
  | .fullcmd => Sys2Proof.Machine.execFullcmd s

end Sys2Proof.Machine
end

