-- ==== Sys2Proof/Machine/HostPort.lean ====
section
/-! DEFINITION. The host's side of the engine: what each host action does (10_state.md R13), with the write to `CMD`
that runs a command (R61, R63); the actions each line of a listing stands for (30_encoding.md R65); and one line of
the script as one step. -/

namespace Sys2Proof.Machine

/-- A write of `code` to `CMD`: the command of that code runs, or a reserved code raises `IllegalCommand` before any
operand is read (R61, R63, R155, R158). -/
def issueCommand (code : Byte) (s : State) : Host.Outcome State Fault Refusal :=
  match decodeByte code with
  | some i => exec i s
  | none => .next (raiseError .illegalCommand s)

/-- `HWriteI(i, v)` when `i < ICAP` (R13). -/
def performWriteI (i : Nat) (v : Byte) (s : State) : Host.Outcome State Fault Refusal :=
  if inSpace s.params.icap i then .next (hostWriteI i v s) else .fault (.outsideSpace .I i)

/-- `HSetILen(n)` when `n ≤ ICAP` (R13). -/
def performSetILen (n : Nat) (s : State) : Host.Outcome State Fault Refusal :=
  if fits s.params.icap n then .next (hostSetILen n s) else .refused (.lengthAboveCapacity n)

/-- `HReadO(i)` when `i < OLEN` (R13, R22). -/
def performReadO (i : Nat) (s : State) : Host.Outcome State Fault Refusal :=
  match s.readO i with
  | some v => .next (hostReceive (.outCell i v) s)
  | none =>
    if inSpace s.params.ocap i then .refused (.unspecifiedOutputCell i) else .fault (.outsideSpace .O i)

/-- `HReadT(i)` when `i ≤ 255` (R13, R41). -/
def performReadT (i : Nat) (s : State) : Host.Outcome State Fault Refusal :=
  if i ≤ 255 then .next (hostReceive (.tableCell i (readT (BitVec.ofNat 8 i))) s)
  else .fault (.outsideSpace .T i)

/-- One host action, atomic, taking effect at once (R13, R49, R50). -/
def perform (a : HostAction) (s : State) : Host.Outcome State Fault Refusal :=
  match a with
  | .writeI i v => performWriteI i v s
  | .setILen n => performSetILen n s
  | .setArg v => .next (hostSetArg v s)
  | .issue code => issueCommand code s
  | .readO i => performReadO i s
  | .readOLen => .next (hostReceive (.outLen s.olen) s)
  | .readRes => .next (hostReceive (.res s.res) s)
  | .readStatus => .next (hostReceive (.status s.status.word) s)
  | .readT i => performReadT i s

/-- Host actions performed one after the other, stopping at the first that has no move (R52). -/
def performAll : List HostAction → State → Host.Outcome State Fault Refusal
  | [], s => .next s
  | a :: acts, s =>
    match perform a s with
    | .next t => performAll acts t
    | .fault f => .fault f
    | .refused r => .refused r

/-- `HWriteI(k, b)` for each listed byte in order, from index `k` up (R65). -/
def writeActions : Nat → List Byte → List HostAction
  | _, [] => []
  | k, b :: bs => .writeI k b :: writeActions (k + 1) bs

/-- `HReadO(k)` and `HWriteI(k, …)` of the byte it returns, for each cell of `OUT` in order (R65). -/
def copyActions : Nat → List Byte → List HostAction
  | _, [] => []
  | k, b :: bs => .readO k :: .writeI k b :: copyActions (k + 1) bs

/-- The actions that load a sequence as `IN`: write its cells, then set `ILEN` (R65, R183). -/
def loadActions (bs : List Byte) : List HostAction := writeActions 0 bs ++ [.setILen bs.length]

/-- The codes of a text's characters, each in one 8-bit cell; `none` when a code needs more (R65, R75, U11).  For an
ASCII character this is the ASCII code (R6, R65, R75).  DESIGN CHOICE (assumption 16, unsafe): the spec gives a
character that is not ASCII no code; the model takes its Unicode code point when that is 0x80 to 0xFF (é is 0xE9). -/
def textCodes : List Char → Option (List Byte)
  | [] => some []
  | c :: cs =>
    if c.toNat < 256 then (textCodes cs).map (BitVec.ofNat 8 c.toNat :: ·) else none

/-- The host actions a line stands for, when it begins in the state `s` (R65); `none` for a text with a character
that is not representable.  What MOVOI and LDARGRES read cannot change between their own actions, since host writes
leave the output side alone (R12), so the values are those of `s`.  The reset event is no host action. -/
def lineActions (l : ScriptLine) (s : State) : Option (List HostAction) :=
  match l with
  | .act a => some [a]
  | .command i => some [.issue (encodeByte i)]
  | .rawCommand code => some [.issue code]
  | .ldtxt text => (textCodes text).map loadActions
  | .ldbytes bytes => some (loadActions bytes)
  | .ldarg v => some [.setArg v]
  | .movoi => some (.readOLen :: (copyActions 0 s.out ++ [.setILen s.olen]))
  | .ldargres => some [.readRes, .setArg s.res]
  | .stopIfError => some [.readStatus]
  | .reset => some []

/-- What the outside world does after this step: a line `if STATUS ≠ 0 stop` ends the script when `STATUS` is not
0x00 (95_test_vectors.md section 4). -/
def restAfter (l : ScriptLine) (rest : List ScriptLine) (s : State) : List ScriptLine :=
  match l with
  | .stopIfError => if s.status.word = 0 then rest else []
  | _ => rest

/-- Performs the first of a line's actions now and leaves its other actions at the front of the script, so that
each step is one host action (R13, R52). -/
def beginActions (acts : List HostAction) (rest : List ScriptLine) (s : State) : Host.Outcome State Fault Refusal :=
  match acts with
  | [] => .next (withScript rest s)
  | a :: more => perform a (withScript (more.map .act ++ rest) s)

/-- The first line of the script as one step: the reset event, or the first host action of the line. -/
def runLine (l : ScriptLine) (rest : List ScriptLine) (s : State) : Host.Outcome State Fault Refusal :=
  match l with
  | .reset => .next (resetEvent (withScript rest s))
  | _ =>
    match lineActions l s with
    | none => .refused .characterNotRepresentable
    | some acts => beginActions acts (restAfter l rest s) s

/-- The lines that write the bytes of a command word to `CMD`, one byte at a time. -/
def issueLines (bytes : List Byte) : List ScriptLine := bytes.map (fun b => .act (.issue b))

end Sys2Proof.Machine
end

