-- ==== Sys2Proof/Machine/Step.lean ====
section
/-! DEFINITION. One step: the engine has no program counter and fetches nothing (10_state.md R11); it acts only when
the outside world does something, and waits otherwise (R160, R167). -/

namespace Sys2Proof.Machine

/-- One step: the first line of the script; with no line left the engine is idle and keeps all its state (R167). -/
def step (s : State) : Host.Outcome State Fault Refusal :=
  match s.script with
  | [] => .next s
  | l :: rest => runLine l rest s

/-- `s`, with a host write of this command word to `CMD` as the next thing that happens (R61, assumption 7). -/
def State.withFetchWord (s : State) (nbits w : Nat) : State :=
  withScript (issueLines (wordBytes nbits w) ++ s.script) s

end Sys2Proof.Machine
end

