-- ==== Sys2Proof/Laws/PerInstr.lean ====
section
/-! SUPPORT. Statements made for each command, one lemma for each. -/

namespace Sys2Proof.Laws.RoundTrip

/-- Decoding the bytes of a command, whatever follows them, gives the command back and leaves what follows. -/
def Statement (i : Instr) : Prop := ∀ rest, decode (encode i ++ rest) = .ok (i, rest)

theorem parse : Statement .parse := fun _ => rfl
theorem format : Statement .format := fun _ => rfl
theorem crc : Statement .crc := fun _ => rfl
theorem wire : Statement .wire := fun _ => rfl
theorem swap : Statement .swap := fun _ => rfl
theorem fullcmd : Statement .fullcmd := fun _ => rfl

end Sys2Proof.Laws.RoundTrip
end

