-- ==== Sys2Proof/Machine/System.lean ====
section
/-! DEFINITION. Several engines side by side (60_exceptions.md R168): each has its own state, the constant table is
all they may share, and they have no way to signal each other. -/

namespace Sys2Proof.Machine

/-- A system of engines, each with its own stream of host actions.  DESIGN CHOICE (assumption 15): an engine has no
identifier (R168), so the free values of R30 do not depend on which engine it is: two engines of equal reset counts
provably hold the same `ARG`, `RES` and unwritten cells right after reset, which R30 does not promise (unsafe). -/
abbrev System := List State

/-- The `k`-th engine takes one step; the others do nothing (R168). -/
def System.step (k : Nat) (sys : System) : Host.Outcome System Fault Refusal :=
  match sys[k]? with
  | none => .refused (.noSuchEngine k)
  | some s =>
    match Sys2Proof.Machine.step s with
    | .next t => .next (sys.set k t)
    | .fault f => .fault f
    | .refused r => .refused r

end Sys2Proof.Machine
end

