-- ==== Sys2Proof/Safety.lean ====
section
/-! DEFINITION. What claims are stated in: the invariant of the state, the states a reset can leave, and what one
command may depend on. -/

namespace Sys2Proof.Machine

/-- The invariant of the state: the parameters are legal (R4, R5), the written input cells are in canonical form and
inside the space `I` (R42), and the two lengths are within their capacities (R15, R19). -/
structure Inv (s : State) : Prop where
  paramsLegal : s.params.wellFormed = true
  ibufCanonical : s.ibuf.wf
  ibufInSpace : ∀ c ∈ s.ibuf, inSpace s.params.icap c.1 = true
  ilenFits : fits s.params.icap s.ilen = true
  olenFits : fits s.params.ocap s.olen = true

/-- A state a reset can leave, whatever the unspecified registers and cells hold (R29, R30): `ILEN`, `OLEN` and
`STATUS` are 0, everything else is arbitrary. -/
def AfterReset (s : State) : Prop := s.ilen = 0 ∧ s.olen = 0 ∧ s.status = .ok

/-- Two states agree on all a command may depend on: the parameters, `IN` and `ARG` (R2, R12, R17). -/
def SameOperands (s s' : State) : Prop :=
  s.params = s'.params ∧ s.input = s'.input ∧ s.arg = s'.arg

/-- The outcome is a next state. -/
def Completes (o : Host.Outcome State Fault Refusal) : Prop := ∃ t, o = .next t

end Sys2Proof.Machine
end

