-- ==== Sys2Proof/Certificates/Slice0/Obligations.lean ====
section
/-! DEFINITION. The statements for the provers.  Each docstring names the rules of spec/ it comes from.  "Nothing
else changes" is written `t = { s with f := t.f, … }`: every field but the named ones is that of `s`. -/

open Sys2Proof Sys2Proof.Machine

/-! ### Encoding (30_encoding.md part A) -/

/-- R60, R61: decoding the word of a command gives the command back. -/
def Obligations.DecodeOfEncodeIsTheCommand : Prop := ∀ i : Instr, Laws.RoundTrip.Statement i

/-- R61: a command is one byte; all eight bits are compared with the codes 0x01 to 0x06. -/
def Obligations.DecoderComparesTheWholeByte : Prop :=
  ∀ (bytes : List Byte) (i : Instr) (rest : List Byte), decode bytes = .ok (i, rest) ↔
    ∃ code, bytes = code :: rest ∧
      ((code = 0x01 ∧ i = .parse) ∨ (code = 0x02 ∧ i = .format) ∨ (code = 0x03 ∧ i = .crc) ∨
       (code = 0x04 ∧ i = .wire) ∨ (code = 0x05 ∧ i = .swap) ∨ (code = 0x06 ∧ i = .fullcmd))

/-- The bit patterns of spec/opcode_table.json, written out. -/
def Obligations.TableWordsDecode : Prop :=
  decodeTableWord 8 0b00000001 = some .parse ∧ decodeTableWord 8 0b00000010 = some .format ∧
  decodeTableWord 8 0b00000011 = some .crc ∧ decodeTableWord 8 0b00000100 = some .wire ∧
  decodeTableWord 8 0b00000101 = some .swap ∧ decodeTableWord 8 0b00000110 = some .fullcmd ∧
  decodeTableWord 8 0b00000000 = none ∧ decodeTableWord 8 0b00000111 = none

/-- R63, R155, R158: the reserved codes are 0x00 and 0x07 to 0xFF, and a write of one to `CMD` sets `STATUS <- 0x03`
and `OLEN <- 0` and changes nothing else. -/
def Obligations.ReservedCodeRaisesIllegalCommand : Prop :=
  (∀ code : Byte, decodeByte code = none ↔ (code = 0x00 ∨ 0x07 ≤ code)) ∧
  (∀ (code : Byte) (s : State), code = 0x00 ∨ 0x07 ≤ code → ∃ t, perform (.issue code) s = .next t ∧
    t.olen = 0 ∧ t.status.word = 0x03 ∧ t = { s with out := t.out, status := t.status })

/-! ### The step -/

/-- R11, R23, R61, R65: a host write of a code to `CMD`, in each of the three spellings of a listing, runs the command
the code decodes to, as one step; around `exec` the step only moves past the line. -/
def Obligations.StepRunsTheIssuedCommand : Prop :=
  ∀ (s : State) (code : Byte) (i : Instr) (rest : List ScriptLine), decodeByte code = some i →
    (s.script = .act (.issue code) :: rest → step s = exec i (withScript rest s)) ∧
    (s.script = .rawCommand code :: rest → step s = exec i (withScript rest s)) ∧
    (s.script = .command i :: rest → step s = exec i (withScript rest s))

/-- R167: the idle engine keeps all its state. -/
def Obligations.IdleEngineKeepsItsState : Prop := ∀ s : State, s.script = [] → step s = .next s

/-- R180: the reset event puts the lengths and `STATUS` at 0, and nothing of the engine's state survives it. THE
MODEL'S CHOICES in it: that the outcome is equal for two states of equal parameters, script, replies and reset count,
equal `ARG`, `RES` and unwritten cells included, holds because the reset count alone picks the free values
(assumptions 3 and 4, DESIGN CHOICE, unsafe; R30 leaves those values arbitrary); that the script is kept is assumption
11 (DEDUCED), and so is that the parameters are, read from R4. No value of `ARG`, `RES` or a cell is claimed. -/
def Obligations.NothingSurvivesAReset : Prop :=
  ∀ (s s' : State) (rest : List ScriptLine), s.script = .reset :: rest →
    (∃ t, step s = .next t ∧ t.ilen = 0 ∧ t.olen = 0 ∧ t.status.word = 0x00 ∧ t.params = s.params ∧ t.script = rest) ∧
    (s'.script = s.script → s'.params = s.params → s'.replies = s.replies → s'.resets = s.resets → step s' = step s)

/-- R29: the reset values the spec states, for every choice of the parameters and after every reset, and the table in
place. -/
def Obligations.ResetLeavesTheStatedValues : Prop :=
  (∀ (p : Params) (k : Nat) (sc : List ScriptLine) (rp : List Reply),
    (State.resetWith p k sc rp).ilen = 0 ∧ (State.resetWith p k sc rp).olen = 0 ∧
    (State.resetWith p k sc rp).status.word = 0x00 ∧ (State.resetWith p k sc rp).params = p) ∧
  (∀ i : Byte, readT i = table i) ∧ AfterReset State.reset

/-! ### Host actions (10_state.md R13, 30_encoding.md R65) -/

/-- R13, R50: `HWriteI(i, v)` on a cell of the space writes that cell and no other, and nothing else changes. The
clause that the memory keeps its canonical form is about the model's own representation (assumption 4). -/
def Obligations.HostWriteChangesOneInputCell : Prop :=
  ∀ (s : State) (i : Nat) (v : Byte), inSpace s.params.icap i = true → ∃ t, perform (.writeI i v) s = .next t ∧
    t.readI i = v ∧ (∀ j, j ≠ i → t.readI j = s.readI j) ∧ (s.ibuf.wf → t.ibuf.wf) ∧ t = { s with ibuf := t.ibuf }

/-- R13: `HSetILen(n)` with `n ≤ ICAP` and `HSetArg(v)`. -/
def Obligations.HostSetsLengthAndArgument : Prop :=
  ∀ (s : State) (n : Nat) (v : Word),
    (fits s.params.icap n = true → perform (.setILen n) s = .next { s with ilen := n }) ∧
    perform (.setArg v) s = .next { s with arg := v }

/-- R13, R50: a host read in range returns the value read and changes nothing of the engine. -/
def Obligations.HostReadsReturnAndChangeNothing : Prop :=
  ∀ s : State,
    (∀ i, i < s.olen → ∃ v, s.out[i]? = some v ∧
      perform (.readO i) s = .next { s with replies := .outCell i v :: s.replies }) ∧
    perform .readOLen s = .next { s with replies := .outLen s.out.length :: s.replies } ∧
    perform .readRes s = .next { s with replies := .res s.res :: s.replies } ∧
    perform .readStatus s = .next { s with replies := .status s.status.word :: s.replies } ∧
    (∀ i : Byte, perform (.readT i.toNat) s = .next { s with replies := .tableCell i.toNat (table i) :: s.replies })

/-- R13, R22, R187: a host request out of its range has no move. -/
def Obligations.OutOfRangeRequestsHaveNoMove : Prop :=
  ∀ s : State,
    (∀ i v, inSpace s.params.icap i = false → ¬ Completes (perform (.writeI i v) s)) ∧
    (∀ n, fits s.params.icap n = false → ¬ Completes (perform (.setILen n) s)) ∧
    (∀ i, s.olen ≤ i → ¬ Completes (perform (.readO i) s)) ∧
    (∀ i, 255 < i → ¬ Completes (perform (.readT i) s))

/-- R65, R183, R188: the actions of `LDBYTES` make the listed bytes the input sequence; the cells from their number up
keep their values, and nothing else changes. -/
def Obligations.LoadedBytesAreTheInput : Prop :=
  ∀ (s : State) (bs : List Byte), fits s.params.icap bs.length = true →
    ∃ t, performAll (loadActions bs) s = .next t ∧ t.input = bs ∧ (∀ j, bs.length ≤ j → t.readI j = s.readI j) ∧
      t = { s with ibuf := t.ibuf, ilen := bs.length }

/-- R65: `MOVOI` makes the output sequence the input sequence when it fits in `ICAP` cells, and leaves the output side
and `ARG` as they were. -/
def Obligations.MovoiCopiesTheOutput : Prop :=
  ∀ (s : State) (acts : List HostAction), lineActions .movoi s = some acts → fits s.params.icap s.olen = true →
    ∃ t, performAll acts s = .next t ∧ t.input = s.out ∧
      t = { s with ibuf := t.ibuf, ilen := s.olen, replies := t.replies }

/-- R65: `LDARGRES` copies `RES` to `ARG`. -/
def Obligations.LdargresCopiesTheResult : Prop :=
  ∀ s : State, ∃ acts, lineActions .ldargres s = some acts ∧
    performAll acts s = .next { s with arg := s.res, replies := .res s.res :: s.replies }

/-- R13, R52, R65: running the script step by step performs the actions its first line stands for, one a step, in
order, and then goes on with the rest.  THE MODEL'S CHOICES in it: that the outside world is a script in the state
(assumption 5), and that a line `if STATUS ≠ 0 stop` (95_test_vectors.md section 4) that stops drops the rest of it
(assumption 12); the codes of a text's characters that are not ASCII are the model's too (assumption 16). -/
def Obligations.StepsPerformTheLinesActions : Prop :=
  ∀ (s t : State) (l : ScriptLine) (rest : List ScriptLine) (acts : List HostAction),
    s.script = l :: rest → l ≠ .reset → lineActions l s = some acts →
    performAll acts (withScript (restAfter l rest s) s) = .next t →
    Host.Core.run Sys2Proof.core acts.length s = .next t ∧ t.script = restAfter l rest s

/-! ### The commands -/

/-- R105: PARSE, when the text parses and its bytes fit, delivers the bytes; nothing else changes. -/
def Obligations.ParseDeliversTheBytes : Prop :=
  ∀ (s : State) (B : List Byte), parseHex s.params.ws s.input = .ok B → fits s.params.ocap B.length = true →
    exec .parse s = .next { s with out := B, status := .ok }

/-- R100, R105, R143, R154, R156, R157, R162: PARSE and FULLCMD report the first check that fails, in the order odd
length, invalid digit, capacity, and a failing command sets `OLEN <- 0` and `STATUS` and changes nothing else.  `u` is
the stripped text; the result has `|u| div 2` cells for PARSE and `3 * (|u| div 2) + 5` for FULLCMD. -/
def Obligations.FirstFailingTextCheckIsReported : Prop :=
  ∀ (s : State) (i : Instr) (L : Nat) (u : List Byte), u = strip s.params.ws s.input →
    (i = .parse ∧ L = u.length / 2) ∨ (i = .fullcmd ∧ L = 3 * (u.length / 2) + 5) →
    (u.length % 2 = 1 →
      exec i s = .next { s with out := [], status := .failed (.invalidFormat .oddLength) }) ∧
    (u.length % 2 = 0 → (∃ c ∈ u, hexval c = none) →
      exec i s = .next { s with out := [], status := .failed (.invalidFormat .invalidDigit) }) ∧
    (u.length % 2 = 0 → (∀ c ∈ u, hexval c ≠ none) → fits s.params.ocap L = false →
      exec i s = .next { s with out := [], status := .failed .capacity }) ∧
    (u.length % 2 = 0 → (∀ c ∈ u, hexval c ≠ none) → fits s.params.ocap L = true →
      ∃ t, exec i s = .next t ∧ t.olen = L ∧ t.status = .ok ∧ t = { s with out := t.out, status := t.status })

/-- R110, R154: FORMAT delivers the text of the input bytes when its `3 * ILEN - 1` cells (0 when `ILEN = 0`) fit, and
raises `Capacity` when they do not; nothing else changes. -/
def Obligations.FormatDeliversTheText : Prop :=
  decodeByte 0x02 = some .format ∧ ∀ s : State,
    (fits s.params.ocap (3 * s.ilen - 1) = true →
      exec .format s = .next { s with out := formatHex s.input, status := .ok }) ∧
    (fits s.params.ocap (3 * s.ilen - 1) = false →
      exec .format s = .next { s with out := [], status := .failed .capacity })

/-- R120, R124: CRC writes the checksum of the input bytes to `RES`, in every state; nothing else changes but
`STATUS <- 0x00`. -/
def Obligations.CrcWritesTheChecksum : Prop :=
  decodeByte 0x03 = some .crc ∧ ∀ s : State, exec .crc s = .next { s with res := s.input.foldl crcStep 0xFFFF, status := .ok }

/-- R126, R127: WIRE delivers `ARG[7:0]` then `ARG[15:8]`, in every state; nothing else changes but
`STATUS <- 0x00`. -/
def Obligations.WireDeliversLowByteFirst : Prop :=
  decodeByte 0x04 = some .wire ∧ ∀ s : State, exec .wire s =
    .next { s with out := [s.arg.extractLsb' 0 8, s.arg.extractLsb' 8 8], status := .ok }

/-- R129, R131: SWAP writes to `RES` the value with bits 15:8 equal to `ARG[7:0]` and bits 7:0 equal to `ARG[15:8]`, in
every state; nothing else changes but `STATUS <- 0x00`. -/
def Obligations.SwapExchangesTheBytes : Prop :=
  decodeByte 0x05 = some .swap ∧ ∀ s : State, exec .swap s =
    .next { s with res := s.arg.extractLsb' 0 8 ++ s.arg.extractLsb' 8 8, status := .ok }

/-- R140, R143: FULLCMD, when the text parses to `B` and the `3 * |B| + 5` cells fit, delivers the text of `B` followed
by the CRC of `B`, low byte first; `RES` does not get the CRC, and nothing else changes. -/
def Obligations.FullcmdDeliversFrameWithCrc : Prop :=
  ∀ (s : State) (B : List Byte), parseHex s.params.ws s.input = .ok B →
    fits s.params.ocap (3 * B.length + 5) = true →
    exec .fullcmd s = .next { s with
      out := formatHex (B ++ [(computeCrc16Modbus B).extractLsb' 0 8, (computeCrc16Modbus B).extractLsb' 8 8]),
      status := .ok }

/-- R141: a parse error, and only that, is FULLCMD's error, with the same cause, and the command then does exactly what
PARSE does. -/
def Obligations.FullcmdPropagatesTheParseError : Prop :=
  (∀ (ws s : List Byte) (c : FormatCause), buildFullCommand ws s = .error c ↔ parseHex ws s = .error c) ∧
  (∀ (s : State) (c : FormatCause), parseHex s.params.ws s.input = .error c →
    exec .fullcmd s = exec .parse s ∧ exec .fullcmd s = .next { s with out := [], status := .failed (.invalidFormat c) })

/-- R190: every command ends, in every state with exactly one outcome, a next state. -/
def Obligations.EveryCommandEnds : Prop := ∀ (i : Instr) (s : State), Completes (exec i s)

/-- R12, R17: FRAME of all six commands: no command changes the input side (`IBUF`, cell by cell, `ILEN`, `ARG`), the
parameters, or anything of the outside world. -/
def Obligations.CommandsLeaveTheInputSide : Prop :=
  ∀ (i : Instr) (s t : State), exec i s = .next t →
    (∀ j, t.readI j = s.readI j) ∧ t.ilen = s.ilen ∧ t.arg = s.arg ∧ t.params = s.params ∧
    t.ibuf = s.ibuf ∧ t.script = s.script ∧ t.replies = s.replies ∧ t.resets = s.resets

/-- R17, R185: FRAME of the output side: CRC and SWAP store to no cell of `OBUF` (every cell reads as before) and leave
`OLEN`; PARSE, FORMAT, WIRE and FULLCMD leave `RES`. -/
def Obligations.CommandsWriteOnlyTheirOwnResult : Prop :=
  ∀ (i : Instr) (s t : State), exec i s = .next t →
    ((i = .crc ∨ i = .swap) → t.olen = s.olen ∧ ∀ j, t.readO j = s.readO j) ∧
    ((i = .parse ∨ i = .format ∨ i = .wire ∨ i = .fullcmd) → t.res = s.res)

/-- R150, R159: a command that fails is PARSE, FORMAT or FULLCMD, and has exactly the effects of raising its error:
`OLEN <- 0` and `STATUS`. -/
def Obligations.FailureHasNoPartialEffect : Prop :=
  ∀ (i : Instr) (s t : State), exec i s = .next t → t.status.word ≠ 0x00 →
    (i = .parse ∨ i = .format ∨ i = .fullcmd) ∧ t.olen = 0 ∧ t = { s with out := [], status := t.status }

/-- R2, R12, R25: a command's results depend on the parameters, `IN` and `ARG` only, never on a result or a status an
earlier command left. -/
def Obligations.ResultsDependOnOperandsOnly : Prop :=
  ∀ (i : Instr) (s s' t t' : State), SameOperands s s' → exec i s = .next t → exec i s' = .next t' →
    t.status = t'.status ∧ ((i = .crc ∨ i = .swap) → t.res = t'.res) ∧
    ((i = .parse ∨ i = .format ∨ i = .wire ∨ i = .fullcmd) → t.out = t'.out)

/-- R2, R164: issuing the same command again on the same input side changes nothing: it gives the same result, or the
same error. -/
def Obligations.RepeatingACommandChangesNothing : Prop :=
  ∀ (i : Instr) (s t : State), exec i s = .next t → exec i t = .next t

/-- R24: `STATUS` takes one of five values, with `ERR` in bits 1:0, `CAUSE` in bits 3:2 and bits 7:4 zero; `CAUSE` is
nonzero only when `ERR` is 1, and the values tell the errors apart. -/
def Obligations.StatusHasFiveValues : Prop :=
  (∀ st : Status, st.word ∈ ([0x00, 0x05, 0x09, 0x02, 0x03] : List Byte) ∧ st.word.extractLsb' 0 2 = st.err ∧
    st.word.extractLsb' 2 2 = st.cause ∧ st.word.extractLsb' 4 4 = 0 ∧ (st.cause ≠ 0 → st.err = 1) ∧ st.cause ≠ 3) ∧
  (Status.ok.word = 0x00 ∧ (Status.failed (.invalidFormat .oddLength)).word = 0x05 ∧
    (Status.failed (.invalidFormat .invalidDigit)).word = 0x09 ∧ (Status.failed .capacity).word = 0x02 ∧
    (Status.failed .illegalCommand).word = 0x03)

/-! ### The table (40_table.md) -/

/-- R91: the literal cells of `T` are the generator's values; with the checks on a transcription R91 gives: 256 values,
pairwise different, of sum 8380544, the XOR of all of them 0x0000. -/
def Obligations.TableCellsAreGenerated : Prop :=
  tableCells.length = 256 ∧ (∀ i : Byte, readT i = table i) ∧ (∀ a b : Byte, readT a = readT b → a = b) ∧
  (tableCells.map BitVec.toNat).sum = 8380544 ∧ tableCells.foldl (· ^^^ ·) 0 = 0

/-- The table is linear over XOR, and its eight one-bit entries (40_table.md, the sentence of R92, which the spec
derives from R90). -/
def Obligations.TableIsLinear : Prop :=
  (∀ a b : Byte, readT (a ^^^ b) = readT a ^^^ readT b) ∧ readT 0 = 0 ∧
  readT 0x01 = 0xC0C1 ∧ readT 0x02 = 0xC181 ∧ readT 0x04 = 0xC301 ∧ readT 0x08 = 0xC601 ∧
  readT 0x10 = 0xCC01 ∧ readT 0x20 = 0xD801 ∧ readT 0x40 = 0xF001 ∧ readT 0x80 = 0xA001

/-- The left-shifting formulation gives the same 256 values (40_table.md, the sentence of R93, which the spec derives
from R90). -/
def Obligations.LeftShiftingGivesTheSameTable : Prop := ∀ i : Byte, tableByLeftShifts i = readT i

/-! ### The hex codec (41_hex_codec.md) -/

/-- R111: formatting and parsing again gives the bytes back, for every legal `WS`. -/
def Obligations.ParseOfFormatIsTheIdentity : Prop :=
  ∀ (p : Params) (B : List Byte), p.wellFormed = true → parseHex p.ws (formatHex B) = .ok B

/-- 41_hex_codec.md section 5, the sentence of R112 the spec derives from R100 and R107: formatting what was parsed
gives a canonical text, which is the text parsed exactly when that was canonical already. -/
def Obligations.FormatOfParseIsCanonical : Prop :=
  ∀ (p : Params) (T B : List Byte), p.wellFormed = true → parseHex p.ws T = .ok B →
    isCanonicalText (formatHex B) = true ∧ (formatHex B = T ↔ isCanonicalText T = true)

/-- 30_encoding.md B.3, R76, which the spec derives from R69 to R71: the canonical texts are the outputs of
`formatHex`, and every one is accepted, for every legal `WS`. -/
def Obligations.CanonicalTextsAreFormatted : Prop :=
  ∀ T : List Byte, (isCanonicalText T = true ↔ ∃ B, T = formatHex B) ∧
    (isCanonicalText T = true → ∀ p : Params, p.wellFormed = true → ∃ B, parseHex p.ws T = .ok B)

/-- 41_hex_codec.md section 3, R108, which the spec derives from R107: the length of a formatted text and the
character at each of its places. -/
def Obligations.FormattedTextLayout : Prop :=
  formatHex [] = [] ∧
  ∀ B : List Byte, (B ≠ [] → (formatHex B).length = 3 * B.length - 1) ∧
    ∀ (k : Nat) (b : Byte), B[k]? = some b →
      (formatHex B)[3 * k]? = some (hexdigit (highNibble b)) ∧
      (formatHex B)[3 * k + 1]? = some (hexdigit (lowNibble b)) ∧
      (k + 1 < B.length → (formatHex B)[3 * k + 2]? = some 0x20)

/-- 41_hex_codec.md, R106 (a), which the spec derives from R100 to R103: parsing sees no whitespace, error cause
included: a whitespace character put in anywhere changes nothing. -/
def Obligations.ParseIsBlindToWhitespace : Prop :=
  ∀ ws s : List Byte, parseHex ws (strip ws s) = parseHex ws s ∧
    ∀ (s' : List Byte) (w : Byte), isWhitespace ws w = true → parseHex ws (s ++ w :: s') = parseHex ws (s ++ s')

/-- 41_hex_codec.md, R106 (b), which the spec derives from R100 to R103: parsing sees no case: a digit put in the
place of another of the same value changes nothing. -/
def Obligations.ParseIsBlindToCase : Prop :=
  ∀ (p : Params) (s s' : List Byte), p.wellFormed = true →
    List.Forall₂ (fun c c' => c = c' ∨ (hexval c ≠ none ∧ hexval c = hexval c')) s s' →
    parseHex p.ws s = parseHex p.ws s'

/-- 41_hex_codec.md, R106 (c) and (e), which the spec derives from R100 to R103: the length of what is parsed, and
parsing a text in two parts: the two results one after the other when both parts parse, and a success as well when
each part has only digits and an odd number of them. -/
def Obligations.ParseOfAConcatenation : Prop :=
  ∀ ws s t : List Byte,
    (∀ A, parseHex ws s = .ok A → A.length = (strip ws s).length / 2) ∧
    (∀ A B, parseHex ws s = .ok A → parseHex ws t = .ok B → parseHex ws (s ++ t) = .ok (A ++ B)) ∧
    ((strip ws s).length % 2 = 1 → (strip ws t).length % 2 = 1 →
      (∀ c ∈ strip ws s ++ strip ws t, hexval c ≠ none) →
      parseHex ws s = .error .oddLength ∧ parseHex ws t = .error .oddLength ∧ ∃ B, parseHex ws (s ++ t) = .ok B)

/-- 30_encoding.md B.2, R77, which the spec derives from R100 to R103, the accepted texts: every character a hex digit
or whitespace, and the number of hex digits even. -/
def Obligations.AcceptedLanguage : Prop :=
  ∀ (p : Params) (s : List Byte), p.wellFormed = true →
    ((∃ B, parseHex p.ws s = .ok B) ↔
      (∀ c ∈ s, hexval c ≠ none ∨ c ∈ p.ws) ∧ s.countP (fun c => (hexval c).isSome) % 2 = 0)

/-! ### The CRC engine (42_crc_engine.md) -/

/-- R120, R121, R122, and 42_crc_engine.md, R125 (a), which the spec derives from R120 and R121: one step is one
lookup, with the low byte of the register alone in the index; the empty sequence gives 0xFFFF; a further byte is a
further step. -/
def Obligations.ChecksumIsIncremental : Prop :=
  (∀ (R : Word) (b : Byte), crcStep R b = (R >>> 8) ^^^ readT (R.extractLsb' 0 8 ^^^ b)) ∧
  computeCrc16Modbus [] = 0xFFFF ∧
  ∀ (B : List Byte) (b : Byte), computeCrc16Modbus (B ++ [b]) = crcStep (computeCrc16Modbus B) b

/-- 42_crc_engine.md and 40_table.md, R90, R91 (`T` is `table`), R120, R121, a consequence the spec does not state:
the table-driven computation is the division by the polynomial 0xA001 one bit at a time: each byte is XORed into the
register, which then takes eight rounds of the generator. -/
def Obligations.LookupEqualsBitSerialDivision : Prop :=
  ∀ B : List Byte, computeCrc16Modbus B = B.foldl (fun R b => rounds tableRound 8 (R ^^^ b.setWidth 16)) 0xFFFF

/-- 42_crc_engine.md, R125 (b) and (c), which the spec derives from R120, R121 and `T[0] = 0`: a frame followed by its
CRC in wire form has CRC zero; with the two CRC bytes the other way round some frame has not. -/
def Obligations.FrameWithItsCrcHasCrcZero : Prop :=
  (∀ B : List Byte, computeCrc16Modbus
    (B ++ [(computeCrc16Modbus B).extractLsb' 0 8, (computeCrc16Modbus B).extractLsb' 8 8]) = 0x0000) ∧
  ∃ B : List Byte, computeCrc16Modbus
    (B ++ [(computeCrc16Modbus B).extractLsb' 8 8, (computeCrc16Modbus B).extractLsb' 0 8]) ≠ 0x0000

/-- R123: every 16-bit value can be a result. -/
def Obligations.EveryValueIsAChecksum : Prop := ∀ v : Word, ∃ B : List Byte, computeCrc16Modbus B = v

/-- R126: the wire form is the low byte and the high byte, and loses nothing. -/
def Obligations.WireFormLosesNothing : Prop :=
  ∀ c : Word, toWireForm c = (c.extractLsb' 0 8, c.extractLsb' 8 8) ∧
    c = joinBytes (toWireForm c).2 (toWireForm c).1

/-- R129, and the properties of R130, which the spec derives from R129: the swapped form joins the low byte on top of
the high byte, is its own inverse, moves each bit eight places and changes none, and is the value itself exactly when
the two bytes are equal (one value for each of the 256 bytes). -/
def Obligations.SwappedFormProperties : Prop :=
  ∀ c : Word, swapped c = joinBytes (lowByte c) (highByte c) ∧ swapped (swapped c) = c ∧
    (∀ k, k < 16 → (swapped c).getLsbD k = c.getLsbD ((k + 8) % 16)) ∧ (swapped c = c ↔ highByte c = lowByte c) ∧
    (swapped c = c ↔ ∃ b : Byte, c = joinBytes b b) ∧ ∀ a b : Byte, joinBytes a a = joinBytes b b → a = b

/-- 42_crc_engine.md, R133, which the spec derives from R126, R129 and R72: the digits of the swapped form are those
of the wire bytes in transmission order; in terms of commands, the digits of `RES` after SWAP are the characters
FORMAT gives for the `OUT` of WIRE, with the space removed. -/
def Obligations.DisplayLaw : Prop :=
  (∀ c : Word, hex4 (swapped c) = hex2 (toWireForm c).1 ++ hex2 (toWireForm c).2) ∧
  (∀ s t u : State, exec .swap s = .next t → exec .wire s = .next u →
    hex4 t.res = (formatHex u.out).filter (fun c => c != 0x20))

/-! ### The pipeline (43_pipeline.md) -/

/-- 43_pipeline.md, R144, which the spec derives from R140 and R108: the length of the full command text and its
parts. -/
def Obligations.FullCommandTextLayout : Prop :=
  ∀ (ws s B txt : List Byte), parseHex ws s = .ok B → buildFullCommand ws s = .ok txt →
    txt.length = 3 * B.length + 5 ∧
    txt = (if B = [] then [] else formatHex B ++ [0x20]) ++
      (hex2 (lowByte (computeCrc16Modbus B)) ++ 0x20 :: hex2 (highByte (computeCrc16Modbus B)))

/-- 43_pipeline.md, R142, which the spec derives from R140, R104 and R122: text of whitespace only, the empty text
among it, gives the full command "FF FF". -/
def Obligations.FullCommandOfBlankText : Prop :=
  ∀ ws s : List Byte, (∀ c ∈ s, c ∈ ws) → parseHex ws s = .ok [] ∧
    buildFullCommand ws s = .ok [0x46, 0x46, 0x20, 0x46, 0x46]

/-- 43_pipeline.md, R145, which the spec derives from the command rules: FULLCMD gives the `OUT` and the `STATUS` of
the host's own composition: PARSE, the output moved to the input, CRC, `RES` moved to `ARG`, WIRE, the two cells
appended to the parsed bytes, FORMAT, provided none of its commands fails. Host moves between two commands are given
by what they leave: the input sequence, `ARG`, the parameters. -/
def Obligations.FullcmdEqualsItsComposition : Prop :=
  ∀ s s1 m1 s2 m2 s3 m3 s4 : State,
    exec .parse s = .next s1 → s1.status = .ok →
    m1.params = s1.params → m1.input = s1.out → exec .crc m1 = .next s2 →
    m2.params = s2.params → m2.arg = s2.res → exec .wire m2 = .next s3 →
    m3.params = s3.params → m3.input = s1.out ++ s3.out → exec .format m3 = .next s4 → s4.status = .ok →
    ∃ t, exec .fullcmd s = .next t ∧ t.out = s4.out ∧ t.status = s4.status ∧ t.res = s.res

/-- R111, R125, R140 together: the text FULLCMD delivers parses, for every legal `WS`, to the input's bytes followed by
two more, and the CRC of all of them is zero. -/
def Obligations.FullcmdOutputChecksToZero : Prop :=
  ∀ s t : State, s.params.wellFormed = true → exec .fullcmd s = .next t → t.status = .ok →
    ∃ A B : List Byte, parseHex s.params.ws s.input = .ok A ∧ parseHex s.params.ws t.out = .ok B ∧
      B.take A.length = A ∧ B.length = A.length + 2 ∧ computeCrc16Modbus B = 0x0000

/-! ### Whole-machine rules -/

/-- R4, R15, R19, R42: the invariant holds after a reset, for every legal choice of the parameters. -/
def Obligations.ResetMeetsTheInvariant : Prop :=
  Inv State.reset ∧ ∀ (p : Params) (k : Nat) (sc : List ScriptLine) (rp : List Reply),
    p.wellFormed = true → Inv (State.resetWith p k sc rp)

/-- R4, R15, R19, R42: every step keeps the invariant: the parameters stay legal, the input cells stay in canonical form
and inside their space, and the lengths stay within the capacities. -/
def Obligations.EveryStepKeepsTheInvariant : Prop :=
  ∀ s t : State, Inv s → step s = .next t → Inv t

/-- R4, R12, R13, R26, R160: the input side changes only by the host's writes to it, the output side only by commands,
either by a reset, and the parameters by nothing.  `l` is the line the step runs. -/
def Obligations.OnlyTheNamedActionsChangeEachSide : Prop :=
  ∀ (s t : State) (l : ScriptLine) (rest : List ScriptLine), s.script = l :: rest → step s = .next t →
    t.params = s.params ∧
    (t.arg ≠ s.arg → l = .reset ∨ ∃ v, l = .ldarg v ∨ l = .act (.setArg v)) ∧
    (t.ilen ≠ s.ilen → l = .reset ∨ l = .ldtxt [] ∨ l = .ldbytes [] ∨ ∃ n, l = .act (.setILen n)) ∧
    ((∃ j, t.readI j ≠ s.readI j) →
      l = .reset ∨ (∃ x, l = .ldtxt x) ∨ (∃ x, l = .ldbytes x) ∨ ∃ i v, l = .act (.writeI i v)) ∧
    (t.out ≠ s.out ∨ t.res ≠ s.res ∨ t.status ≠ s.status →
      l = .reset ∨ ∃ code, l = .act (.issue code) ∨ l = .rawCommand code ∨ ∃ i, l = .command i ∧ code = encodeByte i)

/-- R29, R30, R183: a command issued right after a reset, whatever the unspecified registers hold, works on the empty
sequence and on the arbitrary `ARG`. -/
def Obligations.CommandsRightAfterReset : Prop :=
  ∀ s : State, AfterReset s →
    exec .parse s = .next s ∧ exec .format s = .next s ∧ exec .crc s = .next { s with res := 0xFFFF } ∧
    exec .wire s = .next { s with out := wireBytes s.arg } ∧ exec .swap s = .next { s with res := swapped s.arg } ∧
    (fits s.params.ocap 5 = true → exec .fullcmd s = .next { s with out := [0x46, 0x46, 0x20, 0x46, 0x46] })

/-- R168: steps of two engines of a system may be taken in either order with the same result, and a step of one leaves
the other's state alone. -/
def Obligations.EnginesDoNotDisturbEachOther : Prop :=
  ∀ (sys a ab b : System) (j k : Nat), j ≠ k →
    System.step j sys = .next a → System.step k a = .next ab → System.step k sys = .next b →
    System.step j b = .next ab ∧ a[k]? = sys[k]?
end

