-- ==== Sys2Proof/Laws/State.lean ====
section
/-! SUPPORT. One lemma for each field of `State` and each update of it, true by `rfl`. -/

namespace Sys2Proof.Machine

@[simp] theorem writeOut_params (xs : List Byte) (s : State) : (writeOut xs s).params = s.params := rfl
@[simp] theorem writeOut_ibuf (xs : List Byte) (s : State) : (writeOut xs s).ibuf = s.ibuf := rfl
@[simp] theorem writeOut_ilen (xs : List Byte) (s : State) : (writeOut xs s).ilen = s.ilen := rfl
@[simp] theorem writeOut_arg (xs : List Byte) (s : State) : (writeOut xs s).arg = s.arg := rfl
@[simp] theorem writeOut_out (xs : List Byte) (s : State) : (writeOut xs s).out = xs := rfl
@[simp] theorem writeOut_res (xs : List Byte) (s : State) : (writeOut xs s).res = s.res := rfl
@[simp] theorem writeOut_status (xs : List Byte) (s : State) : (writeOut xs s).status = .ok := rfl
@[simp] theorem writeOut_script (xs : List Byte) (s : State) : (writeOut xs s).script = s.script := rfl
@[simp] theorem writeOut_replies (xs : List Byte) (s : State) : (writeOut xs s).replies = s.replies := rfl
@[simp] theorem writeOut_resets (xs : List Byte) (s : State) : (writeOut xs s).resets = s.resets := rfl

@[simp] theorem writeRes_params (v : Word) (s : State) : (writeRes v s).params = s.params := rfl
@[simp] theorem writeRes_ibuf (v : Word) (s : State) : (writeRes v s).ibuf = s.ibuf := rfl
@[simp] theorem writeRes_ilen (v : Word) (s : State) : (writeRes v s).ilen = s.ilen := rfl
@[simp] theorem writeRes_arg (v : Word) (s : State) : (writeRes v s).arg = s.arg := rfl
@[simp] theorem writeRes_out (v : Word) (s : State) : (writeRes v s).out = s.out := rfl
@[simp] theorem writeRes_res (v : Word) (s : State) : (writeRes v s).res = v := rfl
@[simp] theorem writeRes_status (v : Word) (s : State) : (writeRes v s).status = .ok := rfl
@[simp] theorem writeRes_script (v : Word) (s : State) : (writeRes v s).script = s.script := rfl
@[simp] theorem writeRes_replies (v : Word) (s : State) : (writeRes v s).replies = s.replies := rfl
@[simp] theorem writeRes_resets (v : Word) (s : State) : (writeRes v s).resets = s.resets := rfl

@[simp] theorem raiseError_params (e : EngineError) (s : State) : (raiseError e s).params = s.params := rfl
@[simp] theorem raiseError_ibuf (e : EngineError) (s : State) : (raiseError e s).ibuf = s.ibuf := rfl
@[simp] theorem raiseError_ilen (e : EngineError) (s : State) : (raiseError e s).ilen = s.ilen := rfl
@[simp] theorem raiseError_arg (e : EngineError) (s : State) : (raiseError e s).arg = s.arg := rfl
@[simp] theorem raiseError_out (e : EngineError) (s : State) : (raiseError e s).out = [] := rfl
@[simp] theorem raiseError_res (e : EngineError) (s : State) : (raiseError e s).res = s.res := rfl
@[simp] theorem raiseError_status (e : EngineError) (s : State) : (raiseError e s).status = .failed e := rfl
@[simp] theorem raiseError_script (e : EngineError) (s : State) : (raiseError e s).script = s.script := rfl
@[simp] theorem raiseError_replies (e : EngineError) (s : State) : (raiseError e s).replies = s.replies := rfl
@[simp] theorem raiseError_resets (e : EngineError) (s : State) : (raiseError e s).resets = s.resets := rfl

@[simp] theorem hostWriteI_params (i : Nat) (v : Byte) (s : State) : (hostWriteI i v s).params = s.params := rfl
@[simp] theorem hostWriteI_ibuf (i : Nat) (v : Byte) (s : State) : (hostWriteI i v s).ibuf = s.ibuf.write i v := rfl
@[simp] theorem hostWriteI_ilen (i : Nat) (v : Byte) (s : State) : (hostWriteI i v s).ilen = s.ilen := rfl
@[simp] theorem hostWriteI_arg (i : Nat) (v : Byte) (s : State) : (hostWriteI i v s).arg = s.arg := rfl
@[simp] theorem hostWriteI_out (i : Nat) (v : Byte) (s : State) : (hostWriteI i v s).out = s.out := rfl
@[simp] theorem hostWriteI_res (i : Nat) (v : Byte) (s : State) : (hostWriteI i v s).res = s.res := rfl
@[simp] theorem hostWriteI_status (i : Nat) (v : Byte) (s : State) : (hostWriteI i v s).status = s.status := rfl
@[simp] theorem hostWriteI_script (i : Nat) (v : Byte) (s : State) : (hostWriteI i v s).script = s.script := rfl
@[simp] theorem hostWriteI_replies (i : Nat) (v : Byte) (s : State) : (hostWriteI i v s).replies = s.replies := rfl
@[simp] theorem hostWriteI_resets (i : Nat) (v : Byte) (s : State) : (hostWriteI i v s).resets = s.resets := rfl

@[simp] theorem hostSetILen_params (n : Nat) (s : State) : (hostSetILen n s).params = s.params := rfl
@[simp] theorem hostSetILen_ibuf (n : Nat) (s : State) : (hostSetILen n s).ibuf = s.ibuf := rfl
@[simp] theorem hostSetILen_ilen (n : Nat) (s : State) : (hostSetILen n s).ilen = n := rfl
@[simp] theorem hostSetILen_arg (n : Nat) (s : State) : (hostSetILen n s).arg = s.arg := rfl
@[simp] theorem hostSetILen_out (n : Nat) (s : State) : (hostSetILen n s).out = s.out := rfl
@[simp] theorem hostSetILen_res (n : Nat) (s : State) : (hostSetILen n s).res = s.res := rfl
@[simp] theorem hostSetILen_status (n : Nat) (s : State) : (hostSetILen n s).status = s.status := rfl
@[simp] theorem hostSetILen_script (n : Nat) (s : State) : (hostSetILen n s).script = s.script := rfl
@[simp] theorem hostSetILen_replies (n : Nat) (s : State) : (hostSetILen n s).replies = s.replies := rfl
@[simp] theorem hostSetILen_resets (n : Nat) (s : State) : (hostSetILen n s).resets = s.resets := rfl

@[simp] theorem hostSetArg_params (v : Word) (s : State) : (hostSetArg v s).params = s.params := rfl
@[simp] theorem hostSetArg_ibuf (v : Word) (s : State) : (hostSetArg v s).ibuf = s.ibuf := rfl
@[simp] theorem hostSetArg_ilen (v : Word) (s : State) : (hostSetArg v s).ilen = s.ilen := rfl
@[simp] theorem hostSetArg_arg (v : Word) (s : State) : (hostSetArg v s).arg = v := rfl
@[simp] theorem hostSetArg_out (v : Word) (s : State) : (hostSetArg v s).out = s.out := rfl
@[simp] theorem hostSetArg_res (v : Word) (s : State) : (hostSetArg v s).res = s.res := rfl
@[simp] theorem hostSetArg_status (v : Word) (s : State) : (hostSetArg v s).status = s.status := rfl
@[simp] theorem hostSetArg_script (v : Word) (s : State) : (hostSetArg v s).script = s.script := rfl
@[simp] theorem hostSetArg_replies (v : Word) (s : State) : (hostSetArg v s).replies = s.replies := rfl
@[simp] theorem hostSetArg_resets (v : Word) (s : State) : (hostSetArg v s).resets = s.resets := rfl

@[simp] theorem hostReceive_params (r : Reply) (s : State) : (hostReceive r s).params = s.params := rfl
@[simp] theorem hostReceive_ibuf (r : Reply) (s : State) : (hostReceive r s).ibuf = s.ibuf := rfl
@[simp] theorem hostReceive_ilen (r : Reply) (s : State) : (hostReceive r s).ilen = s.ilen := rfl
@[simp] theorem hostReceive_arg (r : Reply) (s : State) : (hostReceive r s).arg = s.arg := rfl
@[simp] theorem hostReceive_out (r : Reply) (s : State) : (hostReceive r s).out = s.out := rfl
@[simp] theorem hostReceive_res (r : Reply) (s : State) : (hostReceive r s).res = s.res := rfl
@[simp] theorem hostReceive_status (r : Reply) (s : State) : (hostReceive r s).status = s.status := rfl
@[simp] theorem hostReceive_script (r : Reply) (s : State) : (hostReceive r s).script = s.script := rfl
@[simp] theorem hostReceive_replies (r : Reply) (s : State) : (hostReceive r s).replies = r :: s.replies := rfl
@[simp] theorem hostReceive_resets (r : Reply) (s : State) : (hostReceive r s).resets = s.resets := rfl

@[simp] theorem withScript_params (rest : List ScriptLine) (s : State) : (withScript rest s).params = s.params := rfl
@[simp] theorem withScript_ibuf (rest : List ScriptLine) (s : State) : (withScript rest s).ibuf = s.ibuf := rfl
@[simp] theorem withScript_ilen (rest : List ScriptLine) (s : State) : (withScript rest s).ilen = s.ilen := rfl
@[simp] theorem withScript_arg (rest : List ScriptLine) (s : State) : (withScript rest s).arg = s.arg := rfl
@[simp] theorem withScript_out (rest : List ScriptLine) (s : State) : (withScript rest s).out = s.out := rfl
@[simp] theorem withScript_res (rest : List ScriptLine) (s : State) : (withScript rest s).res = s.res := rfl
@[simp] theorem withScript_status (rest : List ScriptLine) (s : State) : (withScript rest s).status = s.status := rfl
@[simp] theorem withScript_script (rest : List ScriptLine) (s : State) : (withScript rest s).script = rest := rfl
@[simp] theorem withScript_replies (rest : List ScriptLine) (s : State) : (withScript rest s).replies = s.replies := rfl
@[simp] theorem withScript_resets (rest : List ScriptLine) (s : State) : (withScript rest s).resets = s.resets := rfl

@[simp] theorem resetEvent_params (s : State) : (resetEvent s).params = s.params := rfl
@[simp] theorem resetEvent_ibuf (s : State) : (resetEvent s).ibuf = [] := rfl
@[simp] theorem resetEvent_ilen (s : State) : (resetEvent s).ilen = 0 := rfl
@[simp] theorem resetEvent_arg (s : State) : (resetEvent s).arg = Config.argAtReset (s.resets + 1) := rfl
@[simp] theorem resetEvent_out (s : State) : (resetEvent s).out = [] := rfl
@[simp] theorem resetEvent_res (s : State) : (resetEvent s).res = Config.resAtReset (s.resets + 1) := rfl
@[simp] theorem resetEvent_status (s : State) : (resetEvent s).status = .ok := rfl
@[simp] theorem resetEvent_script (s : State) : (resetEvent s).script = s.script := rfl
@[simp] theorem resetEvent_replies (s : State) : (resetEvent s).replies = s.replies := rfl
@[simp] theorem resetEvent_resets (s : State) : (resetEvent s).resets = s.resets + 1 := rfl

@[simp] theorem resetWith_params (p : Params) (k : Nat) (sc : List ScriptLine) (rp : List Reply) :
    (State.resetWith p k sc rp).params = p := rfl
@[simp] theorem resetWith_ibuf (p : Params) (k : Nat) (sc : List ScriptLine) (rp : List Reply) :
    (State.resetWith p k sc rp).ibuf = [] := rfl
@[simp] theorem resetWith_ilen (p : Params) (k : Nat) (sc : List ScriptLine) (rp : List Reply) :
    (State.resetWith p k sc rp).ilen = 0 := rfl
@[simp] theorem resetWith_arg (p : Params) (k : Nat) (sc : List ScriptLine) (rp : List Reply) :
    (State.resetWith p k sc rp).arg = Config.argAtReset k := rfl
@[simp] theorem resetWith_out (p : Params) (k : Nat) (sc : List ScriptLine) (rp : List Reply) :
    (State.resetWith p k sc rp).out = [] := rfl
@[simp] theorem resetWith_res (p : Params) (k : Nat) (sc : List ScriptLine) (rp : List Reply) :
    (State.resetWith p k sc rp).res = Config.resAtReset k := rfl
@[simp] theorem resetWith_status (p : Params) (k : Nat) (sc : List ScriptLine) (rp : List Reply) :
    (State.resetWith p k sc rp).status = .ok := rfl
@[simp] theorem resetWith_script (p : Params) (k : Nat) (sc : List ScriptLine) (rp : List Reply) :
    (State.resetWith p k sc rp).script = sc := rfl
@[simp] theorem resetWith_replies (p : Params) (k : Nat) (sc : List ScriptLine) (rp : List Reply) :
    (State.resetWith p k sc rp).replies = rp := rfl
@[simp] theorem resetWith_resets (p : Params) (k : Nat) (sc : List ScriptLine) (rp : List Reply) :
    (State.resetWith p k sc rp).resets = k := rfl

/-! Two updates of the script: the last one wins, and the script commutes with every other update. -/

@[simp] theorem withScript_withScript (a b : List ScriptLine) (s : State) :
    withScript a (withScript b s) = withScript a s := rfl

@[simp] theorem withScript_self (s : State) : withScript s.script s = s := rfl

end Sys2Proof.Machine
end

