-- ==== Sys2Proof/Laws/Chars.lean ====
section
/-! SUPPORT. Digits, pairs and bit fields. -/

namespace Sys2Proof.Machine

/-- What `hexval` answers is the value of a digit. -/
theorem hexval_lt : ∀ {c v : Byte}, hexval c = some v → v < 16 := by decide +revert

theorem hexval_hexdigit : ∀ n : Nibble, hexval (hexdigit n) = some (n.setWidth 8) := by decide

theorem hexval_space : hexval space = none := by decide

theorem isUpperDigit_hexdigit : ∀ n : Nibble, isUpperDigit (hexdigit n) = true := by decide

/-- An uppercase digit is the digit of its value. -/
theorem exists_hexdigit_of_isUpperDigit : ∀ c : Byte, isUpperDigit c = true → ∃ n : Nibble, hexdigit n = c := by
  decide

/-- The two characters of a byte stand for that byte. -/
theorem pairval_hex2 : ∀ b : Byte, pairval (hexdigit (highNibble b)) (hexdigit (lowNibble b)) = some b := by
  decide

/-- Two nibbles are the nibbles of a byte. -/
theorem exists_byte_of_nibbles : ∀ m n : Nibble, ∃ b : Byte, highNibble b = m ∧ lowNibble b = n := by
  intro m n
  exact ⟨m ++ n, by revert m n; decide, by revert m n; decide⟩

theorem pairval_isSome (c0 c1 : Byte) : (pairval c0 c1).isSome = ((hexval c0).isSome && (hexval c1).isSome) := by
  unfold pairval
  cases hexval c0 <;> cases hexval c1 <;> rfl

/-! What a legal choice of the parameters says. -/

theorem wellFormed_iff (p : Params) : p.wellFormed = true ↔
    fits p.ocap 2 = true ∧ (0x20 ∈ p.ws ∧ 0x09 ∈ p.ws) ∧ (∀ c ∈ p.ws, hexval c = none) ∧ p.ws.Pairwise (· < ·) := by
  simp [Params.wellFormed, Params.ocapLegal, Params.wsHasBlanks, Params.wsHasNoDigit, Params.wsIsSet, and_assoc]

/-- The space is whitespace whatever `WS` is. -/
theorem isWhitespace_space {p : Params} (h : p.wellFormed = true) : isWhitespace p.ws space = true := by
  simpa [isWhitespace, space] using ((wellFormed_iff p).1 h).2.1.1

/-- A hex digit is never whitespace. -/
theorem not_isWhitespace_of_digit {p : Params} (h : p.wellFormed = true) {c : Byte} (hc : (hexval c).isSome = true) :
    isWhitespace p.ws c = false := by
  by_contra hw
  have : c ∈ p.ws := by simpa [isWhitespace] using hw
  simp [((wellFormed_iff p).1 h).2.2.1 c this] at hc

theorem joinBytes_high_low (c : Word) : joinBytes (highByte c) (lowByte c) = c := by
  apply BitVec.eq_of_getLsbD_eq
  intro i hi
  simp [joinBytes, highByte, lowByte]
  by_cases h : i < 8
  · simp [h, hi]
  · have h8 : 8 + (i - 8) = i := by omega
    have h9 : i - 8 < 8 := by omega
    have h10 : i - 8 < 16 := by omega
    simp [h, hi, h8, h9, h10]

theorem fits_mono {cap : Cap} {m n : Nat} (h : m ≤ n) (hn : fits cap n = true) : fits cap m = true := by
  cases cap with
  | none => rfl
  | some c => simp only [fits, decide_eq_true_eq] at *; omega

theorem inSpace_of_lt_of_fits {cap : Cap} {i n : Nat} (h : i < n) (hn : fits cap n = true) :
    inSpace cap i = true := by
  cases cap with
  | none => rfl
  | some c => simp only [fits, inSpace, decide_eq_true_eq] at *; omega

end Sys2Proof.Machine
end

