-- ==== Sys2Proof/Laws/Codec.lean ====
section
/-! SUPPORT. The hex codec: stripping, the pairs of a stripped text, the text of a byte sequence. -/

namespace Sys2Proof.Machine

/-! Stripping. -/

@[simp] theorem strip_nil (ws : List Byte) : strip ws [] = [] := rfl

theorem strip_append (ws s t : List Byte) : strip ws (s ++ t) = strip ws s ++ strip ws t := by simp [strip]

theorem strip_strip (ws s : List Byte) : strip ws (strip ws s) = strip ws s := by simp [strip]

theorem strip_cons_of_ws {ws : List Byte} {c : Byte} (h : isWhitespace ws c = true) (s : List Byte) :
    strip ws (c :: s) = strip ws s := by simp [strip, h]

theorem strip_cons_of_not_ws {ws : List Byte} {c : Byte} (h : isWhitespace ws c = false) (s : List Byte) :
    strip ws (c :: s) = c :: strip ws s := by simp [strip, h]

/-! The pairs of a text of even length. -/

/-- Induction on a list two elements at a time. -/
theorem pairs_induction {P : List Byte → Prop} (nil : P []) (single : ∀ c, P [c])
    (pair : ∀ c0 c1 u, P u → P (c0 :: c1 :: u)) : ∀ u, P u
  | [] => nil
  | [c] => single c
  | c0 :: c1 :: u => pair c0 c1 u (pairs_induction nil single pair u)

theorem parsePairs_cons_ok {c0 c1 v : Byte} {u B : List Byte} (h : pairval c0 c1 = some v)
    (hu : parsePairs u = .ok B) : parsePairs (c0 :: c1 :: u) = .ok (v :: B) := by
  simp [parsePairs, h, hu]

/-- A success gives one byte for each pair, and no character is left over. -/
theorem parsePairs_length {u B : List Byte} (h : parsePairs u = .ok B) : u.length = 2 * B.length := by
  induction u using pairs_induction generalizing B with
  | nil => simp [parsePairs] at h; simp [h]
  | single c => simp [parsePairs] at h
  | pair c0 c1 u ih =>
    simp only [parsePairs] at h
    split at h
    · cases h
    · split at h
      · cases h
      · next B' hB => cases h; simp [ih hB]; omega

/-- A text of even length whose characters are all digits gives bytes. -/
theorem parsePairs_ok_of_digits {u : List Byte} (he : u.length % 2 = 0) (hd : ∀ c ∈ u, hexval c ≠ none) :
    ∃ B, parsePairs u = .ok B := by
  induction u using pairs_induction with
  | nil => exact ⟨[], rfl⟩
  | single c => simp at he
  | pair c0 c1 u ih =>
    obtain ⟨B, hB⟩ := ih (by simp only [List.length_cons] at he; omega) fun c hc => hd c (by simp [hc])
    have h0 : (pairval c0 c1).isSome = true := by
      simp [pairval_isSome, Option.isSome_iff_ne_none, hd c0 (by simp), hd c1 (by simp)]
    obtain ⟨v, hv⟩ := Option.isSome_iff_exists.1 h0
    exact ⟨v :: B, parsePairs_cons_ok hv hB⟩

/-- A text of even length with a character that is no digit gives `invalidDigit`. -/
theorem parsePairs_invalidDigit {u : List Byte} (he : u.length % 2 = 0) (hd : ∃ c ∈ u, hexval c = none) :
    parsePairs u = .error .invalidDigit := by
  induction u using pairs_induction with
  | nil => simp at hd
  | single c => simp at he
  | pair c0 c1 u ih =>
    simp only [parsePairs]
    cases hp : pairval c0 c1 with
    | none => rfl
    | some v =>
      have hs := pairval_isSome c0 c1
      rw [hp] at hs
      simp at hs
      obtain ⟨c, hc, hn⟩ := hd
      have : c ∈ u := by
        rcases List.mem_cons.1 hc with rfl | hc
        · simp [hn] at hs
        · rcases List.mem_cons.1 hc with rfl | hc
          · simp [hn] at hs
          · exact hc
      rw [ih (by simp only [List.length_cons] at he; omega) ⟨c, this, hn⟩]

/-- Bytes come only from digits. -/
theorem digits_of_parsePairs {u B : List Byte} (h : parsePairs u = .ok B) : ∀ c ∈ u, hexval c ≠ none := by
  intro c hc hn
  have := parsePairs_invalidDigit (by rw [parsePairs_length h]; omega) ⟨c, hc, hn⟩
  simp [this] at h

theorem parsePairs_append {u v A B : List Byte} (hA : parsePairs u = .ok A) (hB : parsePairs v = .ok B) :
    parsePairs (u ++ v) = .ok (A ++ B) := by
  induction u using pairs_induction generalizing A with
  | nil => simp [parsePairs] at hA; simp [hA, hB]
  | single c => simp [parsePairs] at hA
  | pair c0 c1 u ih =>
    simp only [parsePairs] at hA
    split at hA
    · cases hA
    · next w hw =>
      split at hA
      · cases hA
      · next A' hA' =>
        cases hA
        exact parsePairs_cons_ok hw (ih hA')

/-! `parseHex`. -/

theorem parseHex_of_even {ws s : List Byte} (h : (strip ws s).length % 2 = 0) :
    parseHex ws s = parsePairs (strip ws s) := by simp [parseHex, h]

theorem parseHex_of_odd {ws s : List Byte} (h : (strip ws s).length % 2 = 1) :
    parseHex ws s = .error .oddLength := by simp [parseHex, h]

/-- A success of `parseHex` is a success of the pairs. -/
theorem parsePairs_of_parseHex {ws s B : List Byte} (h : parseHex ws s = .ok B) :
    parsePairs (strip ws s) = .ok B := by
  unfold parseHex at h
  split at h
  · cases h
  · exact h

theorem parseHex_of_parsePairs {ws s B : List Byte} (h : parsePairs (strip ws s) = .ok B) :
    parseHex ws s = .ok B := by
  rw [parseHex_of_even (by rw [parsePairs_length h]; omega), h]

/-! `formatHex`. -/

@[simp] theorem hex2_length (b : Byte) : (hex2 b).length = 2 := rfl

@[simp] theorem spacedPairs_length (B : List Byte) : (spacedPairs B).length = 3 * B.length := by
  induction B with
  | nil => rfl
  | cons b B ih => simp [spacedPairs, ih]; omega

theorem formatHex_length (B : List Byte) : (formatHex B).length = 3 * B.length - 1 := by
  cases B with
  | nil => rfl
  | cons b B => simp [formatHex]; omega

theorem spacedPairs_append (A B : List Byte) : spacedPairs (A ++ B) = spacedPairs A ++ spacedPairs B := by
  induction A with
  | nil => rfl
  | cons a A ih => simp [spacedPairs, ih]

/-- Stripping the tail of a formatted text leaves its digits. -/
theorem strip_spacedPairs {p : Params} (h : p.wellFormed = true) (B : List Byte) :
    strip p.ws (spacedPairs B) = B.flatMap hex2 := by
  have hd : ∀ n : Nibble, isWhitespace p.ws (hexdigit n) = false := fun n =>
    not_isWhitespace_of_digit h (by simp [hexval_hexdigit])
  induction B with
  | nil => rfl
  | cons b B ih =>
    simp [spacedPairs, hex2, strip_cons_of_ws (isWhitespace_space h), strip_cons_of_not_ws (hd _), ih]

/-- Stripping a formatted text leaves its digits. -/
theorem strip_formatHex {p : Params} (h : p.wellFormed = true) (B : List Byte) :
    strip p.ws (formatHex B) = B.flatMap hex2 := by
  cases B with
  | nil => rfl
  | cons b B =>
    have := strip_spacedPairs h (b :: B)
    rwa [spacedPairs, strip_cons_of_ws (isWhitespace_space h)] at this

/-- The digits of a byte sequence are its pairs. -/
theorem parsePairs_digits (B : List Byte) : parsePairs (B.flatMap hex2) = .ok B := by
  induction B with
  | nil => rfl
  | cons b B ih =>
    exact parsePairs_cons_ok (pairval_hex2 b) ih

end Sys2Proof.Machine
end

