-- ==== Sys2Proof/Laws/Crc.lean ====
section
/-! SUPPORT. The table's generator is linear, the step of the CRC loop, and the two forms of a checksum. -/

namespace Sys2Proof.Machine

/-! The generator's rounds. -/

theorem tableRound_xor (a b : Word) : tableRound (a ^^^ b) = tableRound a ^^^ tableRound b := by
  unfold tableRound
  rw [BitVec.getLsbD_xor, BitVec.ushiftRight_xor_distrib]
  cases a.getLsbD 0 <;> cases b.getLsbD 0
  · simp
  · simp [BitVec.xor_assoc]
  · simp only [Bool.xor_false, if_true, Bool.false_eq_true, if_false]
    rw [BitVec.xor_assoc, BitVec.xor_assoc, BitVec.xor_comm (b >>> 1)]
  · simp only [Bool.xor_self, if_true, Bool.false_eq_true, if_false]
    rw [BitVec.xor_assoc, BitVec.xor_comm 0xA001, BitVec.xor_assoc, BitVec.xor_self, BitVec.xor_zero]

theorem rounds_xor (n : Nat) (a b : Word) :
    rounds tableRound n (a ^^^ b) = rounds tableRound n a ^^^ rounds tableRound n b := by
  induction n generalizing a b with
  | zero => rfl
  | succ n ih => simp only [rounds, tableRound_xor, ih]

/-- A round only shifts when the bit shifted out is 0. -/
theorem tableRound_of_even {r : Word} (h : r.getLsbD 0 = false) : tableRound r = r >>> 1 := by
  unfold tableRound
  rw [h]
  rfl

/-- Eight rounds of a register whose low byte is 0 shift its high byte down. -/
theorem rounds_of_lowByte_zero : ∀ h : Byte, rounds tableRound 8 (h.setWidth 16 <<< 8) = h.setWidth 16 := by
  decide

theorem tableCells_length : tableCells.length = 256 := by
  simp only [tableCells, List.length_append]
  rfl

/-! The bytes of a 16-bit value. -/

theorem highByte_xor (a b : Word) : highByte (a ^^^ b) = highByte a ^^^ highByte b := by
  apply BitVec.eq_of_getLsbD_eq
  intro i hi
  simp [highByte, hi]

theorem lowByte_xor (a b : Word) : lowByte (a ^^^ b) = lowByte a ^^^ lowByte b := by
  apply BitVec.eq_of_getLsbD_eq
  intro i hi
  simp [lowByte, hi]

theorem highByte_joinBytes (h l : Byte) : highByte (joinBytes h l) = h := by
  apply BitVec.eq_of_getLsbD_eq
  intro i hi
  simp [joinBytes, highByte, hi, show 8 + i < 16 by omega]

theorem lowByte_joinBytes (h l : Byte) : lowByte (joinBytes h l) = l := by
  apply BitVec.eq_of_getLsbD_eq
  intro i hi
  simp [joinBytes, lowByte, hi, show i < 16 by omega]

/-- Two 16-bit values with the same bytes are equal. -/
theorem word_ext {a b : Word} (h : highByte a = highByte b) (l : lowByte a = lowByte b) : a = b := by
  rw [← joinBytes_high_low a, ← joinBytes_high_low b, h, l]

/-! The step of the loop. -/

theorem crcStep_eq (R : Word) (b : Byte) : crcStep R b = (R >>> 8) ^^^ readT (lowByte R ^^^ b) := by
  have h : (R ^^^ b.setWidth 16).setWidth 8 = lowByte R ^^^ b := by
    apply BitVec.eq_of_getLsbD_eq
    intro i hi
    simp [lowByte, hi, show i < 16 by omega]
  simp only [crcStep, h]

theorem shift_eq_highByte (R : Word) : R >>> 8 = (highByte R).setWidth 16 := by
  apply BitVec.eq_of_getLsbD_eq
  intro i hi
  simp only [BitVec.getLsbD_ushiftRight, highByte, BitVec.getLsbD_setWidth, BitVec.getLsbD_extractLsb', hi, decide_true,
    Bool.true_and]
  by_cases h : i < 8
  · simp [h]
  · simp [h, BitVec.getLsbD_of_ge R (8 + i) (by omega)]

@[simp] theorem lowByte_setWidth (b : Byte) : lowByte (b.setWidth 16) = b := by
  apply BitVec.eq_of_getLsbD_eq
  intro i hi
  simp [lowByte, hi, show i < 16 by omega]

@[simp] theorem highByte_setWidth (b : Byte) : highByte (b.setWidth 16) = 0#8 := by
  apply BitVec.eq_of_getLsbD_eq
  intro i hi
  simp [highByte]

theorem readT_zero : readT 0#8 = 0#16 := rfl

/-- A step with the register's own low byte shifts the high byte down. -/
theorem crcStep_lowByte (R : Word) : crcStep R (lowByte R) = (highByte R).setWidth 16 := by
  simp only [crcStep_eq, BitVec.xor_self, readT_zero, BitVec.xor_zero, shift_eq_highByte]

@[simp] theorem computeCrc16Modbus_nil : computeCrc16Modbus [] = 0xFFFF := rfl

theorem computeCrc16Modbus_append (A B : List Byte) :
    computeCrc16Modbus (A ++ B) = B.foldl crcStep (computeCrc16Modbus A) := by
  simp [computeCrc16Modbus, List.foldl_append]

/-- A 16-bit value is the XOR of its high byte in place and its low byte. -/
theorem split_bytes (R : Word) : R = ((highByte R).setWidth 16 <<< 8) ^^^ (lowByte R).setWidth 16 := by
  apply BitVec.eq_of_getLsbD_eq
  intro i hi
  simp only [BitVec.getLsbD_xor, BitVec.getLsbD_shiftLeft, BitVec.getLsbD_setWidth, highByte, lowByte,
    BitVec.getLsbD_extractLsb', hi, decide_true, Bool.true_and]
  by_cases h : i < 8
  · simp [h]
  · simp [h, show 8 + (i - 8) = i by omega, show i - 8 < 8 by omega, show i - 8 < 16 by omega]

/-! The swapped form. -/

theorem swapped_getLsbD (c : Word) {k : Nat} (hk : k < 16) :
    (swapped c).getLsbD k = c.getLsbD ((k + 8) % 16) := by
  simp only [swapped, BitVec.getLsbD_or, BitVec.getLsbD_shiftLeft, BitVec.getLsbD_ushiftRight, hk, decide_true,
    Bool.true_and]
  by_cases h : k < 8
  · simp [h, show (k + 8) % 16 = 8 + k by omega]
  · simp [h, show (k + 8) % 16 = k - 8 by omega, BitVec.getLsbD_of_ge c (8 + k) (by omega)]

end Sys2Proof.Machine
end

