-- ==== Sys2Proof/Laws/Memory.lean ====
section
/-! SUPPORT. The input buffer: read after write, the canonical form, and that equal memories are equal lists. -/

namespace Sys2Proof.Machine

theorem Memory.read_write_same (m : Memory) (a : Nat) (v : Byte) : (m.write a v).read a = some v := by
  induction m with
  | nil => simp [Memory.write, Memory.read]
  | cons c m ih =>
    obtain ⟨b, w⟩ := c
    simp only [Memory.write]
    split
    · simp [Memory.read]
    · split
      · simp [Memory.read]
      · next h => simpa [Memory.read, h] using ih

theorem Memory.read_write_other (m : Memory) {a j : Nat} (v : Byte) (h : j ≠ a) :
    (m.write a v).read j = m.read j := by
  induction m with
  | nil => simp [Memory.write, Memory.read, h]
  | cons c m ih =>
    obtain ⟨b, w⟩ := c
    simp only [Memory.write]
    split
    · simp [Memory.read, h]
    · split
      · next h2 => subst h2; simp [Memory.read, h]
      · simp [Memory.read, ih]

/-- The cells listed after a write are those listed before and the one written. -/
theorem Memory.mem_write {m : Memory} {a : Nat} {v : Byte} {c : Host.Cell} (h : c ∈ m.write a v) :
    c = (a, v) ∨ c ∈ m := by
  induction m with
  | nil => exact .inl (by simpa [Memory.write] using h)
  | cons d m ih =>
    obtain ⟨b, w⟩ := d
    simp only [Memory.write] at h
    split at h
    · simpa using h
    · split at h
      · rcases List.mem_cons.1 h with h | h
        · exact .inl h
        · exact .inr (List.mem_cons_of_mem _ h)
      · rcases List.mem_cons.1 h with h | h
        · exact .inr (h ▸ List.mem_cons_self)
        · exact (ih h).imp_right (List.mem_cons_of_mem _)

/-- A write keeps the canonical form. -/
theorem Memory.write_wf {m : Memory} (h : m.wf) (a : Nat) (v : Byte) : (m.write a v).wf := by
  induction m with
  | nil => simp [Memory.write, Memory.wf]
  | cons c m ih =>
    obtain ⟨b, w⟩ := c
    have hc := List.pairwise_cons.1 h
    simp only [Memory.write]
    split
    · next hab =>
      refine List.pairwise_cons.2 ⟨fun d hd => ?_, h⟩
      rcases List.mem_cons.1 hd with rfl | hd
      · exact hab
      · exact Nat.lt_trans hab (hc.1 d hd)
    · split
      · next hab => subst hab; exact List.pairwise_cons.2 ⟨hc.1, hc.2⟩
      · next h1 h2 =>
        refine List.pairwise_cons.2 ⟨fun d hd => ?_, ih hc.2⟩
        rcases Memory.mem_write hd with rfl | hd
        · exact by simp only; omega
        · exact hc.1 d hd

/-- Nothing below the first listed index is listed. -/
theorem Memory.read_eq_none_of_lt {m : Memory} {a : Nat} (h : ∀ c ∈ m, a < c.1) : m.read a = none := by
  induction m with
  | nil => rfl
  | cons c m ih =>
    obtain ⟨b, w⟩ := c
    have hb : a < b := h (b, w) List.mem_cons_self
    have := ih fun d hd => h d (List.mem_cons_of_mem _ hd)
    simp [Memory.read, Nat.ne_of_lt hb, this]

/-- Two memories in canonical form that read alike are the same list. -/
theorem Memory.ext_of_wf : ∀ {m n : Memory}, m.wf → n.wf → (∀ a, m.read a = n.read a) → m = n
  | [], [], _, _, _ => rfl
  | [], (b, w) :: n, _, _, h => by simpa [Memory.read] using h b
  | (b, w) :: m, [], _, _, h => by simpa [Memory.read] using h b
  | (a, v) :: m, (b, w) :: n, hm, hn, h => by
    have hm' := List.pairwise_cons.1 hm
    have hn' := List.pairwise_cons.1 hn
    have hab : a = b := by
      rcases Nat.lt_trichotomy a b with hlt | heq | hgt
      · have := h a
        rw [Memory.read_eq_none_of_lt (m := (b, w) :: n) (by
          intro c hc; rcases List.mem_cons.1 hc with rfl | hc
          · exact hlt
          · exact Nat.lt_trans hlt (hn'.1 c hc))] at this
        simp [Memory.read] at this
      · exact heq
      · have := h b
        rw [Memory.read_eq_none_of_lt (m := (a, v) :: m) (by
          intro c hc; rcases List.mem_cons.1 hc with rfl | hc
          · exact hgt
          · exact Nat.lt_trans hgt (hm'.1 c hc))] at this
        simp [Memory.read] at this
    subst hab
    have hv : v = w := by simpa [Memory.read] using h a
    subst hv
    have : m = n := Memory.ext_of_wf hm'.2 hn'.2 fun j => by
      by_cases hj : j = a
      · subst hj
        rw [Memory.read_eq_none_of_lt hm'.1, Memory.read_eq_none_of_lt hn'.1]
      · simpa [Memory.read, hj] using h j
    rw [this]

theorem reset_memory_wf : State.reset.ibuf.wf := List.Pairwise.nil

/-! The reads of a state after an update of it. -/

theorem readI_congr {s t : State} (hm : t.ibuf = s.ibuf) (hk : t.resets = s.resets) : t.readI = s.readI := by
  funext i
  simp [State.readI, hm, hk]

theorem input_congr {s t : State} (hm : t.ibuf = s.ibuf) (hk : t.resets = s.resets) (hn : t.ilen = s.ilen) :
    t.input = s.input := by
  simp [State.input, readI_congr hm hk, hn]

@[simp] theorem input_length (s : State) : s.input.length = s.ilen := by simp [State.input]

@[simp] theorem hostWriteI_readI_same (i : Nat) (v : Byte) (s : State) : (hostWriteI i v s).readI i = v := by
  simp [State.readI, Memory.read_write_same]

theorem hostWriteI_readI_other {i j : Nat} (v : Byte) (s : State) (h : j ≠ i) :
    (hostWriteI i v s).readI j = s.readI j := by
  simp [State.readI, Memory.read_write_other _ _ h]

@[simp] theorem hostSetILen_readI (n : Nat) (s : State) : (hostSetILen n s).readI = s.readI := rfl

@[simp] theorem withScript_input (rest : List ScriptLine) (s : State) : (withScript rest s).input = s.input := rfl

@[simp] theorem hostSetArg_input (v : Word) (s : State) : (hostSetArg v s).input = s.input := rfl

@[simp] theorem hostReceive_readI (r : Reply) (s : State) : (hostReceive r s).readI = s.readI := rfl

end Sys2Proof.Machine
end

