-- ==== Sys2Proof/Laws/Commands.lean ====
section
/-! SUPPORT. What the shared operations of the commands can do, said once. -/

namespace Sys2Proof.Machine

theorem deliver_of_fits {xs : List Byte} {s : State} (h : fits s.params.ocap xs.length = true) :
    deliver xs s = writeOut xs s := by simp [deliver, h]

theorem deliver_of_not_fits {xs : List Byte} {s : State} (h : fits s.params.ocap xs.length = false) :
    deliver xs s = raiseError .capacity s := by simp [deliver, h]

/-- A delivery writes the result, which fits, or raises `Capacity`. -/
theorem deliver_cases (xs : List Byte) (s : State) :
    (fits s.params.ocap xs.length = true ∧ deliver xs s = writeOut xs s) ∨
    (fits s.params.ocap xs.length = false ∧ deliver xs s = raiseError .capacity s) := by
  cases h : fits s.params.ocap xs.length
  · exact .inr ⟨rfl, deliver_of_not_fits h⟩
  · exact .inl ⟨rfl, deliver_of_fits h⟩

/-- A delivery of a stage's result raises that stage's error, or `Capacity`, or writes the result. -/
theorem deliverResult_cases (r : Except FormatCause (List Byte)) (s : State) :
    (∃ c, r = .error c ∧ deliverResult r s = raiseError (.invalidFormat c) s) ∨
    (∃ xs, r = .ok xs ∧ fits s.params.ocap xs.length = false ∧ deliverResult r s = raiseError .capacity s) ∨
    (∃ xs, r = .ok xs ∧ fits s.params.ocap xs.length = true ∧ deliverResult r s = writeOut xs s) := by
  cases r with
  | error c => exact .inl ⟨c, rfl, rfl⟩
  | ok xs =>
    rcases deliver_cases xs s with ⟨h, e⟩ | ⟨h, e⟩
    · exact .inr (.inr ⟨xs, rfl, h, e⟩)
    · exact .inr (.inl ⟨xs, rfl, h, e⟩)

/-- Everything a command can do: write `OUT`, write `RES`, or raise an error. -/
theorem exec_cases {i : Instr} {s t : State} (h : exec i s = .next t) :
    (∃ xs, t = writeOut xs s ∧ (i = .parse ∨ i = .format ∨ i = .wire ∨ i = .fullcmd) ∧
      (fits s.params.ocap xs.length = true ∨ xs.length = 2)) ∨
    (∃ v, t = writeRes v s ∧ (i = .crc ∨ i = .swap)) ∨
    (∃ e, t = raiseError e s ∧ (i = .parse ∨ i = .format ∨ i = .fullcmd) ∧ e ≠ .illegalCommand) := by
  cases i with
  | parse =>
    cases h
    rcases deliverResult_cases (parseHex s.params.ws s.input) s with ⟨c, -, e⟩ | ⟨xs, -, -, e⟩ | ⟨xs, -, hf, e⟩ <;>
      rw [e]
    · exact .inr (.inr ⟨_, rfl, by simp, by simp⟩)
    · exact .inr (.inr ⟨_, rfl, by simp, by simp⟩)
    · exact .inl ⟨xs, rfl, by simp, .inl hf⟩
  | format =>
    cases h
    rcases deliver_cases (formatHex s.input) s with ⟨hf, e⟩ | ⟨-, e⟩ <;> rw [e]
    · exact .inl ⟨_, rfl, by simp, .inl hf⟩
    · exact .inr (.inr ⟨_, rfl, by simp, by simp⟩)
  | crc => cases h; exact .inr (.inl ⟨_, rfl, by simp⟩)
  | wire => cases h; exact .inl ⟨_, rfl, by simp, .inr rfl⟩
  | swap => cases h; exact .inr (.inl ⟨_, rfl, by simp⟩)
  | fullcmd =>
    cases h
    rcases deliverResult_cases (buildFullCommand s.params.ws s.input) s with ⟨c, -, e⟩ | ⟨xs, -, -, e⟩ | ⟨xs, -, hf, e⟩ <;>
      rw [e]
    · exact .inr (.inr ⟨_, rfl, by simp, by simp⟩)
    · exact .inr (.inr ⟨_, rfl, by simp, by simp⟩)
    · exact .inl ⟨xs, rfl, by simp, .inl hf⟩

/-- What `buildFullCommand` gives when the text parses. -/
theorem buildFullCommand_of_parseHex {ws s B : List Byte} (h : parseHex ws s = .ok B) :
    buildFullCommand ws s = .ok (formatHex (B ++ wireBytes (computeCrc16Modbus B))) := by
  simp [buildFullCommand, h]

/-- A command reads nothing of the outside world. -/
theorem exec_withScript {i : Instr} {s t : State} (h : exec i s = .next t) (x : List ScriptLine) :
    exec i (withScript x s) = .next (withScript x t) := by
  cases i <;> cases h
  · simp only [exec, execParse, withScript_params, withScript_input]
    rcases deliverResult_cases (parseHex s.params.ws s.input) s with ⟨c, hc, e⟩ | ⟨xs, hc, hf, e⟩ | ⟨xs, hc, hf, e⟩ <;>
      rw [e, hc]
    · rfl
    · simp only [deliverResult, deliver, withScript_params, hf]; rfl
    · simp only [deliverResult, deliver, withScript_params, hf]; rfl
  · simp only [exec, execFormat, withScript_input]
    rcases deliver_cases (formatHex s.input) s with ⟨hf, e⟩ | ⟨hf, e⟩ <;> rw [e]
    · simp only [deliver, withScript_params, hf]; rfl
    · simp only [deliver, withScript_params, hf]; rfl
  · rfl
  · rfl
  · rfl
  · simp only [exec, execFullcmd, withScript_params, withScript_input]
    rcases deliverResult_cases (buildFullCommand s.params.ws s.input) s with
      ⟨c, hc, e⟩ | ⟨xs, hc, hf, e⟩ | ⟨xs, hc, hf, e⟩ <;> rw [e, hc]
    · rfl
    · simp only [deliverResult, deliver, withScript_params, hf]; rfl
    · simp only [deliverResult, deliver, withScript_params, hf]; rfl

end Sys2Proof.Machine
end

