-- ==== Sys2Proof/Laws/Step.lean ====
section
/-! SUPPORT. What a host action, a line of the script and a step can do, said once. -/

namespace Sys2Proof.Machine

/-- Everything a write to `CMD` can do. -/
theorem issueCommand_cases (code : Byte) (s : State) :
    (∃ i, decodeByte code = some i ∧ issueCommand code s = exec i s) ∨
    (decodeByte code = none ∧ issueCommand code s = .next (raiseError .illegalCommand s)) := by
  cases h : decodeByte code with
  | none => exact .inr ⟨rfl, by simp [issueCommand, h]⟩
  | some i => exact .inl ⟨i, rfl, by simp [issueCommand, h]⟩

/-- Everything a host action that has a move can do. -/
theorem perform_cases {a : HostAction} {s t : State} (h : perform a s = .next t) :
    (∃ i v, a = .writeI i v ∧ inSpace s.params.icap i = true ∧ t = hostWriteI i v s) ∨
    (∃ n, a = .setILen n ∧ fits s.params.icap n = true ∧ t = hostSetILen n s) ∨
    (∃ v, a = .setArg v ∧ t = hostSetArg v s) ∨
    (∃ code, a = .issue code ∧ issueCommand code s = .next t) ∨
    (∃ r, t = hostReceive r s ∧
      (a = .readOLen ∨ a = .readRes ∨ a = .readStatus ∨ (∃ i, a = .readT i) ∨ ∃ i, a = .readO i)) := by
  cases a with
  | writeI i v =>
    simp only [perform, performWriteI] at h
    split at h
    · cases h; exact .inl ⟨i, v, rfl, ‹_›, rfl⟩
    · cases h
  | setILen n =>
    simp only [perform, performSetILen] at h
    split at h
    · cases h; exact .inr (.inl ⟨n, rfl, ‹_›, rfl⟩)
    · cases h
  | setArg v => cases h; exact .inr (.inr (.inl ⟨v, rfl, rfl⟩))
  | issue code => exact .inr (.inr (.inr (.inl ⟨code, rfl, h⟩)))
  | readO i =>
    simp only [perform, performReadO] at h
    split at h
    · cases h; exact .inr (.inr (.inr (.inr ⟨_, rfl, by simp⟩)))
    · split at h <;> cases h
  | readOLen => cases h; exact .inr (.inr (.inr (.inr ⟨_, rfl, by simp⟩)))
  | readRes => cases h; exact .inr (.inr (.inr (.inr ⟨_, rfl, by simp⟩)))
  | readStatus => cases h; exact .inr (.inr (.inr (.inr ⟨_, rfl, by simp⟩)))
  | readT i =>
    simp only [perform, performReadT] at h
    split at h
    · cases h; exact .inr (.inr (.inr (.inr ⟨_, rfl, by simp⟩)))
    · cases h

/-- A host action reads nothing of the script and leaves it alone. -/
theorem perform_withScript {a : HostAction} {s t : State} (h : perform a s = .next t) (x : List ScriptLine) :
    perform a (withScript x s) = .next (withScript x t) := by
  cases a with
  | issue code =>
    simp only [perform, issueCommand] at h ⊢
    split at h
    · exact exec_withScript h x
    · cases h; rfl
  | writeI i v =>
    simp only [perform, performWriteI] at h ⊢
    split at h
    · next hg => cases h; exact if_pos hg
    · cases h
  | setILen n =>
    simp only [perform, performSetILen] at h ⊢
    split at h
    · next hg => cases h; exact if_pos hg
    · cases h
  | readO i =>
    simp only [perform, performReadO, State.readO, withScript_out, withScript_params] at h ⊢
    split at h
    · cases h; rfl
    · split at h <;> cases h
  | readT i =>
    simp only [perform, performReadT] at h ⊢
    split at h
    · next hg => cases h; exact if_pos hg
    · cases h
  | setArg v => cases h; rfl
  | readOLen => cases h; rfl
  | readRes => cases h; rfl
  | readStatus => cases h; rfl

theorem perform_script {a : HostAction} {s t : State} (h : perform a s = .next t) : t.script = s.script := by
  have h2 := perform_withScript h s.script
  rw [withScript_self, h] at h2
  injection h2 with h2
  rw [h2]
  rfl

theorem loadActions_ne_nil (bs : List Byte) : loadActions bs ≠ [] := by simp [loadActions]

/-- A line other than the reset event stands for at least one host action. -/
theorem lineActions_ne_nil {l : ScriptLine} {s : State} {acts : List HostAction} (hl : l ≠ .reset)
    (h : lineActions l s = some acts) : acts ≠ [] := by
  cases l <;> simp only [lineActions, Option.some.injEq, Option.map_eq_some_iff] at h
  case reset => exact absurd rfl hl
  case ldtxt => obtain ⟨bs, -, rfl⟩ := h; exact loadActions_ne_nil bs
  case ldbytes bs => exact h ▸ loadActions_ne_nil bs
  all_goals subst h; simp

/-- Everything a line of the script can do as one step. -/
theorem runLine_cases {l : ScriptLine} {rest : List ScriptLine} {s t : State} (h : runLine l rest s = .next t) :
    (l = .reset ∧ t = resetEvent (withScript rest s)) ∨
    (l ≠ .reset ∧ ∃ a more, lineActions l s = some (a :: more) ∧
      perform a (withScript (more.map .act ++ restAfter l rest s) s) = .next t) := by
  by_cases hl : l = .reset
  · subst hl; cases h; exact .inl ⟨rfl, rfl⟩
  · refine .inr ⟨hl, ?_⟩
    have h' : (match lineActions l s with
      | none => .refused .characterNotRepresentable
      | some acts => beginActions acts (restAfter l rest s) s : Host.Outcome State Fault Refusal) = .next t := by
      cases l <;> first | exact absurd rfl hl | exact h
    cases ha : lineActions l s with
    | none => simp [ha] at h'
    | some acts =>
      cases acts with
      | nil => exact absurd rfl (lineActions_ne_nil hl ha)
      | cons a more => exact ⟨a, more, rfl, by simpa [ha, beginActions] using h'⟩

theorem step_of_script {s : State} {l : ScriptLine} {rest : List ScriptLine} (h : s.script = l :: rest) :
    step s = runLine l rest s := by simp [step, h]

/-- A line other than the reset event performs its first action. -/
theorem runLine_of_actions {l : ScriptLine} {rest : List ScriptLine} {s : State} {a : HostAction}
    {more : List HostAction} (hl : l ≠ .reset) (h : lineActions l s = some (a :: more)) :
    runLine l rest s = perform a (withScript (more.map .act ++ restAfter l rest s) s) := by
  cases l <;> first | exact absurd rfl hl | simp [runLine, h, beginActions]

/-- Everything a step can do: idle, or run the first line of the script. -/
theorem step_cases {s t : State} (h : step s = .next t) :
    (s.script = [] ∧ t = s) ∨ ∃ l rest, s.script = l :: rest ∧ runLine l rest s = .next t := by
  cases hs : s.script with
  | nil => exact .inl ⟨rfl, by simpa [step, hs, eq_comm] using h⟩
  | cons l rest => exact .inr ⟨l, rest, rfl, by rwa [step_of_script hs] at h⟩

/-- Performing two lists of actions, one after the other. -/
theorem performAll_append {A : List HostAction} {s t : State} (h : performAll A s = .next t) (B : List HostAction) :
    performAll (A ++ B) s = performAll B t := by
  induction A generalizing s with
  | nil => cases h; rfl
  | cons a A ih =>
    simp only [performAll, List.cons_append] at h ⊢
    split at h
    · rw [ih h]
    · cases h
    · cases h

/-- Everything a step of a system can do: one engine takes a step and the others are as before. -/
theorem System.step_cases {k : Nat} {sys a : System} (h : System.step k sys = .next a) :
    ∃ s t, sys[k]? = some s ∧ Sys2Proof.Machine.step s = .next t ∧ a = sys.set k t := by
  unfold System.step at h
  split at h
  · cases h
  · next s hs =>
    split at h
    · next t ht => cases h; exact ⟨s, t, hs, ht, rfl⟩
    · cases h
    · cases h

/-! The words of `STATUS`. -/

theorem word_ok : Status.ok.word = 0x00 := by decide

theorem word_failed_ne : ∀ e : EngineError, (Status.failed e).word ≠ 0x00 := by
  rintro ((_ | _) | _ | _) <;> decide

/-! The invariant, operation by operation. -/

theorem inv_withScript {s : State} (h : Inv s) (x : List ScriptLine) : Inv (withScript x s) :=
  ⟨h.paramsLegal, h.ibufCanonical, h.ibufInSpace, h.ilenFits, h.olenFits⟩

theorem inv_hostReceive {s : State} (h : Inv s) (r : Reply) : Inv (hostReceive r s) :=
  ⟨h.paramsLegal, h.ibufCanonical, h.ibufInSpace, h.ilenFits, h.olenFits⟩

theorem fits_zero (cap : Cap) : fits cap 0 = true := by cases cap <;> simp [fits]

theorem inv_raiseError {s : State} (h : Inv s) (e : EngineError) : Inv (raiseError e s) :=
  ⟨h.paramsLegal, h.ibufCanonical, h.ibufInSpace, h.ilenFits, fits_zero _⟩

theorem inv_hostWriteI {s : State} (h : Inv s) {i : Nat} (hi : inSpace s.params.icap i = true) (v : Byte) :
    Inv (hostWriteI i v s) :=
  ⟨h.paramsLegal, Memory.write_wf h.ibufCanonical i v,
    fun _ hc => by
      rcases Memory.mem_write hc with rfl | hc
      · exact hi
      · exact h.ibufInSpace _ hc,
    h.ilenFits, h.olenFits⟩

end Sys2Proof.Machine
end

