-- ==== Sys2Proof/Tests/Slice0.lean ====
section
/-! SUPPORT. Tests: the smoke test of well-formedness, the words of the commands, vectors of spec/95_test_vectors.md (each
test names its vector), and for every statement with hypotheses a state that meets them (`witness_<statement>`). -/

namespace Sys2Proof.Tests

open Sys2Proof.Machine

/-! ### Helpers -/

/-- A state whose input sequence is `bs`, with results of an earlier command on the output side. -/
def start (p : Params) (bs : List Byte) (arg : Word) (script : List ScriptLine) : State :=
  { params := p, ibuf := bs.zipIdx.map (fun x => (x.2, x.1)), ilen := bs.length, arg := arg, out := [0xEE, 0xEE],
    res := 0xBEEF, status := .ok, script := script, replies := [], resets := 0 }

/-- The codes of a text. -/
def txt (cs : List Char) : List Byte := cs.map (fun c => BitVec.ofNat 8 c.toNat)

/-- What a next state shows on the output side: `OUT`, `RES`, and the 8 bits of `STATUS`. -/
def outcome (o : Host.Outcome State Fault Refusal) : Option (List Byte × Word × Byte) :=
  match o with
  | .next t => some (t.out, t.res, t.status.word)
  | _ => none

/-- The default parameters with `OCAP = n`. -/
def small (n : Nat) : Params := { Params.standard with ocap := some n }

/-- The frame of vector E4. -/
def frame : List Byte := [0x01, 0x03, 0x00, 0x00, 0x00, 0x0A]

/-! ### Well-formedness: one ill-formed choice of the parameters for each check -/

theorem test_standard_wellFormed : Params.standard.wellFormed = true := by decide
theorem test_ocap_one_refused : (small 1).ocapLegal = false ∧ (small 1).wellFormed = false := by decide
theorem test_ocap_two_accepted : (small 2).wellFormed = true := by decide
theorem test_ws_without_tab_refused : ({ Params.standard with ws := [0x20] } : Params).wsHasBlanks = false := by decide
theorem test_ws_without_space_refused : ({ Params.standard with ws := [0x09] } : Params).wsHasBlanks = false := by decide
theorem test_ws_with_digit_refused :
    ({ Params.standard with ws := [0x09, 0x20, 0x41] } : Params).wsHasNoDigit = false := by decide
theorem test_ws_unordered_refused : ({ Params.standard with ws := [0x20, 0x09] } : Params).wsIsSet = false := by decide
theorem test_instr_wellFormed : ∀ i : Instr, i.wellFormed = true := by intro i; cases i <;> rfl

/-! ### Decoding: the bits of spec/opcode_table.json -/

theorem test_decode_parse : decode [0b00000001] = .ok (.parse, []) := by decide
theorem test_decode_format : decode [0b00000010] = .ok (.format, []) := by decide
theorem test_decode_crc : decode [0b00000011] = .ok (.crc, []) := by decide
theorem test_decode_wire : decode [0b00000100] = .ok (.wire, []) := by decide
theorem test_decode_swap : decode [0b00000101] = .ok (.swap, []) := by decide
theorem test_decode_fullcmd : decode [0b00000110] = .ok (.fullcmd, []) := by decide
theorem test_decode_reserved : decode [0x00] = .error (.reserved 0x00) ∧ decode [0x07] = .error (.reserved 0x07) ∧
    decode [0xFF] = .error (.reserved 0xFF) ∧ decode [] = .error .noByte := by decide
theorem test_decode_second_byte_left : decode [0x03, 0x05] = .ok (.crc, [0x05]) := by decide
theorem test_decodeTableWord : decodeTableWord 8 4 = some .wire ∧ decodeTableWord 8 0x84 = none := by decide

/-! ### Commands -/

/-- TV-P14: `"  01\t03  00 00 00 0a "`, shortened to its first two bytes and its lowercase last. -/
theorem test_parse_spaces_tabs_lowercase :
    outcome (exec .parse (start Params.standard (txt [' ', ' ', '0', '1', '\t', '0', '3', ' ', '0', 'a', ' ']) 0 [])) =
      some ([0x01, 0x03, 0x0A], 0xBEEF, 0x00) := by decide

/-- TV-P10: `"0A Z"` is of odd length and holds a non-digit; the odd length is reported. -/
theorem test_parse_odd_before_digit :
    outcome (exec .parse (start Params.standard (txt ['0', 'A', ' ', 'Z']) 0 [])) = some ([], 0xBEEF, 0x05) := by decide

/-- TV-F7. -/
theorem test_format_four_bytes :
    outcome (exec .format (start Params.standard [0x00, 0xFF, 0x10, 0xAB] 0 [])) =
      some (txt ['0', '0', ' ', 'F', 'F', ' ', '1', '0', ' ', 'A', 'B'], 0xBEEF, 0x00) := by decide

/-- TV-X6: with `OCAP = 8`, four bytes need 11 cells. -/
theorem test_format_capacity :
    outcome (exec .format (start (small 8) [0x01, 0x02, 0x03, 0x04] 0 [])) = some ([], 0xBEEF, 0x02) := by decide

/-- TV-C10 (the source's E4). -/
theorem test_crc_frame : outcome (exec .crc (start Params.standard frame 0 [])) = some ([0xEE, 0xEE], 0xCDC5, 0x00) := by
  decide

/-- TV-C9: the order of the bytes matters. -/
theorem test_crc_order : outcome (exec .crc (start Params.standard [0x02, 0x01] 0 [])) =
    some ([0xEE, 0xEE], 0x10C1, 0x00) := by decide

/-- TV-W3, and TV-X12: the two cells always fit. -/
theorem test_wire : outcome (exec .wire (start (small 2) [] 0xCDC5 [])) = some ([0xC5, 0xCD], 0xBEEF, 0x00) := by decide

/-- TV-W8. -/
theorem test_swap : outcome (exec .swap (start Params.standard [] 0x8001 [])) = some ([0xEE, 0xEE], 0x0180, 0x00) := by
  decide

/-- TV-U3: `"0A"`; and `RES` stays. -/
theorem test_fullcmd_one_byte : outcome (exec .fullcmd (start Params.standard (txt ['0', 'A']) 0 [])) =
    some (txt ['0', 'A', ' ', '3', 'F', ' ', '4', '7'], 0xBEEF, 0x00) := by decide

/-- TV-U15: `"0A BZ"`. -/
theorem test_fullcmd_invalid_digit :
    outcome (exec .fullcmd (start Params.standard (txt ['0', 'A', ' ', 'B', 'Z']) 0 [])) = some ([], 0xBEEF, 0x09) := by
  decide

/-! ### Characters, the table, the step -/

/-- TV-P34 to TV-P39: the codes just outside the three digit ranges. -/
theorem test_hexval_edges : [0x2F, 0x3A, 0x40, 0x47, 0x60, 0x67].map hexval = [none, none, none, none, none, none] ∧
    [0x30, 0x39, 0x41, 0x46, 0x61, 0x66].map hexval = [some 0, some 9, some 10, some 15, some 10, some 15] := by decide

/-- TV-T2, TV-T6, TV-T11, TV-T13, TV-T14. -/
theorem test_table : [0x01, 0x13, 0x80, 0xFE, 0xFF].map readT = [0xC0C1, 0xCD41, 0xA001, 0x8081, 0x4040] := by decide

/-- R90's worked example: the rounds of 0x80. -/
theorem test_table_generator : table 0x80 = 0xA001 ∧ table 0xFF = 0x4040 := by decide

/-- TV-X1 as a step: a reserved code. -/
theorem test_step_reserved :
    outcome (step (start Params.standard [] 0 [.rawCommand 0x00])) = some ([], 0xBEEF, 0x03) := by decide

/-- TV-X14 as the first step after reset. -/
theorem test_step_crc_after_reset :
    (match step (State.reset.withFetchWord 8 3) with | .next t => (t.res, t.status.word, t.script) | _ => (0, 0xFF, [])) =
      (0xFFFF, 0x00, []) := by decide

/-- P6: `HReadT(0xFE)`. -/
theorem test_step_readT :
    (match step (start Params.standard [] 0 [.act (.readT 0xFE)]) with | .next t => t.replies | _ => []) =
      [.tableCell 0xFE 0x8081] := by decide

/-- R65: `LDTXT "0A"` as its three host actions. -/
theorem test_ldtxt_actions : lineActions (.ldtxt ['0', 'A']) (start Params.standard [] 0 []) =
    some [.writeI 0 0x30, .writeI 1 0x41, .setILen 2] := by decide

/-- R65: the actions of `MOVOI`. -/
theorem test_movoi_actions : lineActions .movoi (start Params.standard [] 0 []) =
    some [.readOLen, .readO 0, .writeI 0 0xEE, .readO 1, .writeI 1 0xEE, .setILen 2] := by decide

/-- P2, line 2, the other way: after an error the host stops. -/
theorem test_stopIfError :
    (match step { start Params.standard [] 0 [.stopIfError, .command .crc] with status := .failed .capacity } with
      | .next t => (t.script, t.replies) | _ => ([.reset], [])) = ([], [.status 0x02]) := by decide

/-! ### Witnesses: for every statement with hypotheses, data that meets them all -/

theorem witness_ReservedCodeRaisesIllegalCommand :
    (0x00 : Byte) = 0x00 ∧ (0x07 : Byte) ≤ 0x07 ∧ (0x07 : Byte) ≤ 0xFF ∧ ¬ (0x07 : Byte) ≤ 0x06 := by decide

theorem witness_StepRunsTheIssuedCommand :
    decodeByte 0x06 = some .fullcmd ∧
    (start Params.standard [] 0 [.act (.issue 0x06)]).script = .act (.issue 0x06) :: [] ∧
    (start Params.standard [] 0 [.rawCommand 0x06]).script = .rawCommand 0x06 :: [] ∧
    (start Params.standard [] 0 [.command .fullcmd]).script = .command .fullcmd :: [] := by decide

theorem witness_IdleEngineKeepsItsState : (start Params.standard frame 0 []).script = [] := rfl

theorem witness_NothingSurvivesAReset :
    let s := start Params.standard frame 5 [.reset, .command .crc]
    let s' := start Params.standard [] 6 [.reset, .command .crc]
    s.script = .reset :: [.command .crc] ∧ s'.script = s.script ∧ s'.params = s.params ∧ s'.replies = s.replies ∧
      s'.resets = s.resets ∧ s ≠ s' := by decide

/-- The last cell of a space of four, and any cell of an unbounded one. -/
theorem witness_HostWriteChangesOneInputCell :
    inSpace (some 4) 3 = true ∧ inSpace none 1000 = true ∧ (start Params.standard frame 0 []).ibuf.wf := by decide

theorem witness_HostSetsLengthAndArgument : fits (some 4) 4 = true ∧ fits (some 4) 0 = true := by decide

theorem witness_HostReadsReturnAndChangeNothing :
    0 < (start Params.standard [] 0 []).olen ∧ 1 < (start Params.standard [] 0 []).olen := by decide

/-- Each request at the first value out of its range. -/
theorem witness_OutOfRangeRequestsHaveNoMove :
    inSpace (some 4) 4 = false ∧ fits (some 4) 5 = false ∧ (start (small 8) [] 0 []).olen ≤ 2 ∧ 255 < 256 := by decide

theorem witness_LoadedBytesAreTheInput :
    fits (some 6) frame.length = true ∧ fits (some 0) ([] : List Byte).length = true := by decide

theorem witness_MovoiCopiesTheOutput :
    (lineActions .movoi (start Params.standard [] 0 [])).isSome = true ∧
    fits (some 2) (start Params.standard [] 0 []).olen = true := by decide

theorem witness_StepsPerformTheLinesActions :
    let s := start Params.standard [] 0 [.ldbytes [0x05], .command .crc]
    s.script = .ldbytes [0x05] :: [.command .crc] ∧ ScriptLine.ldbytes [0x05] ≠ .reset ∧
    lineActions (.ldbytes [0x05]) s = some [.writeI 0 0x05, .setILen 1] ∧
    outcome (performAll [.writeI 0 0x05, .setILen 1] (withScript (restAfter (.ldbytes [0x05]) [.command .crc] s) s)) =
      some ([0xEE, 0xEE], 0xBEEF, 0x00) := by decide

/-- TV-X9 in small: the result just fits. -/
theorem witness_ParseDeliversTheBytes :
    let s := start (small 2) (txt ['0', '1', '0', '2']) 0 []
    parseHex s.params.ws s.input = .ok [0x01, 0x02] ∧ fits s.params.ocap 2 = true := by decide

/-- One text for each clause: odd length; even with a non-digit; digits that do not fit; digits that just fit. -/
theorem witness_FirstFailingTextCheckIsReported :
    let u1 := strip Params.standard.ws (txt ['0', 'A', ' ', 'B'])
    let u2 := strip Params.standard.ws (txt ['0', 'A', ' ', 'B', 'Z'])
    let u3 := strip Params.standard.ws (txt ['0', '1', ' ', '0', '2'])
    (u1.length % 2 = 1) ∧ (u2.length % 2 = 0 ∧ ∃ c ∈ u2, hexval c = none) ∧
    (u3.length % 2 = 0 ∧ ∀ c ∈ u3, hexval c ≠ none) ∧ fits (some 10) (3 * (u3.length / 2) + 5) = false ∧
    fits (some 11) (3 * (u3.length / 2) + 5) = true ∧ fits (some 2) (u3.length / 2) = true := by decide

/-- TV-X5 and TV-X6: three bytes just fit in eight cells, four do not. -/
theorem witness_FormatDeliversTheText :
    fits (small 8).ocap (3 * (start (small 8) [1, 2, 3] 0 []).ilen - 1) = true ∧
    fits (small 8).ocap (3 * (start (small 8) [1, 2, 3, 4] 0 []).ilen - 1) = false := by decide

/-- TV-X7: one byte just fits in eight cells. -/
theorem witness_FullcmdDeliversFrameWithCrc :
    let s := start (small 8) (txt ['0', '1']) 0 []
    parseHex s.params.ws s.input = .ok [0x01] ∧ fits s.params.ocap (3 * [(0x01 : Byte)].length + 5) = true := by decide

theorem witness_FullcmdPropagatesTheParseError :
    let s := start Params.standard (txt ['0', 'A', 'B']) 0 []
    parseHex s.params.ws s.input = .error .oddLength := by decide

/-- A next state of each command, for the statements about every command's next state. -/
theorem witness_CommandsLeaveTheInputSide :
    [Instr.parse, .format, .crc, .wire, .swap, .fullcmd].all
      (fun i => (outcome (exec i (start Params.standard (txt ['0', 'A']) 7 []))).isSome) = true := by decide

theorem witness_CommandsWriteOnlyTheirOwnResult :
    (outcome (exec .crc (start Params.standard frame 7 []))).isSome = true ∧
    (outcome (exec .wire (start Params.standard frame 7 []))).isSome = true := by decide

theorem witness_FailureHasNoPartialEffect :
    outcome (exec .parse (start Params.standard (txt ['5']) 0 [])) = some ([], 0xBEEF, 0x05) ∧ (0x05 : Byte) ≠ 0x00 := by
  decide

/-- Two states that agree on the operands and on nothing of the output side. -/
theorem witness_ResultsDependOnOperandsOnly :
    let s := start Params.standard frame 7 []
    let s' := { s with out := [], res := 1, status := .failed .capacity }
    SameOperands s s' ∧ s.out ≠ s'.out ∧ s.res ≠ s'.res ∧ s.status ≠ s'.status := by
  refine ⟨⟨rfl, rfl, rfl⟩, ?_⟩
  decide

theorem witness_RepeatingACommandChangesNothing :
    outcome (exec .swap (start Params.standard [] 0x1234 [])) = some ([0xEE, 0xEE], 0x3412, 0x00) := by decide

theorem witness_StatusHasFiveValues : (Status.failed (.invalidFormat .oddLength)).cause ≠ 0 := by decide

theorem witness_TableCellsAreGenerated : readT 0x80 = readT 0x80 := rfl

theorem witness_ParseOfFormatIsTheIdentity : Params.standard.wellFormed = true ∧
    ({ Params.standard with ws := [0x09, 0x0A, 0x20] } : Params).wellFormed = true := by decide

/-- TV-R7: `"0a b c"` parses and is not canonical; `"0A BC"` is. -/
theorem witness_FormatOfParseIsCanonical :
    parseHex Params.standard.ws (txt ['0', 'a', ' ', 'b', ' ', 'c']) = .ok [0x0A, 0xBC] ∧
    isCanonicalText (txt ['0', 'a', ' ', 'b', ' ', 'c']) = false ∧
    isCanonicalText (txt ['0', 'A', ' ', 'B', 'C']) = true := by decide

theorem witness_CanonicalTextsAreFormatted : isCanonicalText [] = true ∧
    isCanonicalText (txt ['0', 'A', ' ', 'B', 'C']) = true := by decide

theorem witness_FormattedTextLayout : frame ≠ [] ∧ frame[5]? = some 0x0A ∧ frame[0]? = some 0x01 ∧
    0 + 1 < frame.length := by decide

theorem witness_ParseIsBlindToWhitespace : isWhitespace Params.standard.ws 0x09 = true := by decide

theorem witness_ParseIsBlindToCase : Params.standard.wellFormed = true ∧
    List.Forall₂ (fun c c' => c = c' ∨ (hexval c ≠ none ∧ hexval c = hexval c'))
      (txt ['a', ' ', 'B']) (txt ['A', ' ', 'b']) :=
  ⟨by decide, .cons (.inr (by decide)) (.cons (.inl rfl) (.cons (.inr (by decide)) .nil))⟩

theorem witness_ParseOfAConcatenation :
    parseHex Params.standard.ws (txt ['0', '1']) = .ok [0x01] ∧ parseHex Params.standard.ws (txt ['0', ' ', '2']) = .ok [0x02] ∧
    (strip Params.standard.ws (txt ['0'])).length % 2 = 1 ∧ (strip Params.standard.ws (txt ['1', ' '])).length % 2 = 1 ∧
    ∀ c ∈ strip Params.standard.ws (txt ['0']) ++ strip Params.standard.ws (txt ['1', ' ']), hexval c ≠ none := by decide

theorem witness_AcceptedLanguage : Params.standard.wellFormed = true ∧
    (∀ c ∈ txt ['0', ' ', 'a'], hexval c ≠ none ∨ c ∈ Params.standard.ws) ∧
    (txt ['0', ' ', 'a']).countP (fun c => (hexval c).isSome) % 2 = 0 := by decide

/-- Bit 0 and bit 15; a value equal to its swapped form and one that is not. -/
theorem witness_SwappedFormProperties : 0 < 16 ∧ 15 < 16 ∧ highByte 0xABAB = lowByte 0xABAB ∧
    highByte 0xCDC5 ≠ lowByte 0xCDC5 := by decide

theorem witness_DisplayLaw :
    (outcome (exec .swap (start Params.standard [] 0xCDC5 []))).isSome = true ∧
    (outcome (exec .wire (start Params.standard [] 0xCDC5 []))).isSome = true := by decide

theorem witness_FullCommandTextLayout :
    parseHex Params.standard.ws (txt ['0', '0']) = .ok [0x00] ∧
    buildFullCommand Params.standard.ws (txt ['0', '0']) = .ok (txt ['0', '0', ' ', 'B', 'F', ' ', '4', '0']) := by decide

theorem witness_FullCommandOfBlankText : ∀ c ∈ txt [' ', ' ', '\t'], c ∈ Params.standard.ws := by decide

/-- The chain of P3 on the text `"0A"`: each command's start state and what it leaves. -/
theorem witness_FullcmdEqualsItsComposition :
    outcome (exec .parse (start Params.standard (txt ['0', 'A']) 0 [])) = some ([0x0A], 0xBEEF, 0x00) ∧
    (start Params.standard [0x0A] 0 []).input = [0x0A] ∧
    outcome (exec .crc (start Params.standard [0x0A] 0 [])) = some ([0xEE, 0xEE], 0x473F, 0x00) ∧
    outcome (exec .wire (start Params.standard [0x0A] 0x473F [])) = some ([0x3F, 0x47], 0xBEEF, 0x00) ∧
    (start Params.standard [0x0A, 0x3F, 0x47] 0 []).input = [0x0A] ++ [0x3F, 0x47] ∧
    outcome (exec .format (start Params.standard [0x0A, 0x3F, 0x47] 0 [])) =
      some (txt ['0', 'A', ' ', '3', 'F', ' ', '4', '7'], 0xBEEF, 0x00) := by decide

theorem witness_FullcmdOutputChecksToZero : Params.standard.wellFormed = true ∧
    outcome (exec .fullcmd (start Params.standard (txt ['0', '0']) 0 [])) =
      some (txt ['0', '0', ' ', 'B', 'F', ' ', '4', '0'], 0xBEEF, 0x00) := by decide

theorem witness_ResetMeetsTheInvariant : (small 2).wellFormed = true := by decide

/-- A state with written cells, finite capacities and a full output buffer meets the invariant, and steps. -/
theorem witness_EveryStepKeepsTheInvariant :
    let s := start { Params.standard with icap := some 6, ocap := some 2 } frame 7 [.command .wire]
    Inv s ∧ outcome (step s) = some ([0x07, 0x00], 0xBEEF, 0x00) :=
  ⟨⟨by decide, by decide, by decide, by decide, by decide⟩, by decide⟩

/-- A step that changes each part: `ARG`, `ILEN`, a cell of `IBUF`, the output side. -/
theorem witness_OnlyTheNamedActionsChangeEachSide :
    (match step (start Params.standard [] 0 [.ldarg 5]) with | .next t => t.arg | _ => 0) = 5 ∧
    (match step (start Params.standard frame 0 [.ldbytes []]) with | .next t => t.ilen | _ => 9) = 0 ∧
    (match step (start Params.standard frame 0 [.ldtxt ['A']]) with | .next t => t.readI 0 | _ => 0) = 0x41 ∧
    outcome (step (start Params.standard frame 0 [.command .crc])) = some ([0xEE, 0xEE], 0xCDC5, 0x00) := by decide

theorem witness_CommandsRightAfterReset : AfterReset State.reset ∧ fits State.reset.params.ocap 5 = true :=
  ⟨⟨rfl, rfl, rfl⟩, rfl⟩

/-- Two engines, each with a command to run. -/
theorem witness_EnginesDoNotDisturbEachOther :
    let sys : System := [start Params.standard frame 0 [.command .crc], start Params.standard [] 7 [.command .swap]]
    (0 : Nat) ≠ 1 ∧
    (match System.step 0 sys with
      | .next a => (match System.step 1 a with | .next ab => ab.map (·.res) | _ => [])
      | _ => []) = [0xCDC5, 0x0700] ∧
    (match System.step 1 sys with | .next b => b.map (·.res) | _ => []) = [0xBEEF, 0x0700] := by decide

end Sys2Proof.Tests
end

/-! PROOFS. The whole-machine rules of 00_scope.md: the invariant, what a command's results depend on, and which
actions change each side of the engine. -/

namespace Sys2Proof.Machine

/-! ### The invariant, operation by operation -/

/-- The two cells of WIRE's result fit in every legal output buffer (R4, R127). -/
theorem fits_ocap_two {p : Params} (h : p.wellFormed = true) : fits p.ocap 2 = true := by
  simp only [Params.wellFormed, Bool.and_eq_true] at h
  obtain ⟨⟨⟨hocap, -⟩, -⟩, -⟩ := h
  exact hocap

theorem inv_resetWith {p : Params} (h : p.wellFormed = true) (k : Nat) (sc : List ScriptLine) (rp : List Reply) :
    Inv (State.resetWith p k sc rp) where
  paramsLegal := h
  ibufCanonical := List.Pairwise.nil
  ibufInSpace := by simp
  ilenFits := fits_zero _
  olenFits := fits_zero _

theorem inv_resetEvent {s : State} (h : Inv s) : Inv (resetEvent s) :=
  inv_resetWith h.paramsLegal _ _ _

theorem inv_writeOut {s : State} (h : Inv s) {xs : List Byte} (hf : fits s.params.ocap xs.length = true) :
    Inv (writeOut xs s) :=
  { h with olenFits := hf }

theorem inv_writeRes {s : State} (h : Inv s) (v : Word) : Inv (writeRes v s) := { h with }

theorem inv_hostSetILen {s : State} (h : Inv s) {n : Nat} (hf : fits s.params.icap n = true) :
    Inv (hostSetILen n s) :=
  { h with ilenFits := hf }

theorem inv_hostSetArg {s : State} (h : Inv s) (v : Word) : Inv (hostSetArg v s) := { h with }

theorem inv_exec {i : Instr} {s t : State} (h : Inv s) (ht : exec i s = .next t) : Inv t := by
  rcases exec_cases ht with ⟨xs, rfl, -, hf | hlen⟩ | ⟨v, rfl, -⟩ | ⟨e, rfl, -, -⟩
  · exact inv_writeOut h hf
  · exact inv_writeOut h (hlen ▸ fits_ocap_two h.paramsLegal)
  · exact inv_writeRes h v
  · exact inv_raiseError h e

theorem inv_issueCommand {code : Byte} {s t : State} (h : Inv s) (ht : issueCommand code s = .next t) : Inv t := by
  rcases issueCommand_cases code s with ⟨i, -, e⟩ | ⟨-, e⟩ <;> rw [e] at ht
  · exact inv_exec h ht
  · cases ht; exact inv_raiseError h _

theorem inv_perform {a : HostAction} {s t : State} (h : Inv s) (ht : perform a s = .next t) : Inv t := by
  rcases perform_cases ht with ⟨i, v, -, hi, rfl⟩ | ⟨n, -, hf, rfl⟩ | ⟨v, -, rfl⟩ | ⟨code, -, hc⟩ | ⟨r, rfl, -⟩
  · exact inv_hostWriteI h hi v
  · exact inv_hostSetILen h hf
  · exact inv_hostSetArg h v
  · exact inv_issueCommand h hc
  · exact inv_hostReceive h r

theorem inv_runLine {l : ScriptLine} {rest : List ScriptLine} {s t : State} (h : Inv s)
    (ht : runLine l rest s = .next t) : Inv t := by
  rcases runLine_cases ht with ⟨-, rfl⟩ | ⟨-, a, more, -, hp⟩
  · exact inv_resetEvent (inv_withScript h rest)
  · exact inv_perform (inv_withScript h _) hp

/-- Settles O55: the idle step changes nothing, and `inv_runLine` covers every line of the script. -/
theorem everyStepKeepsTheInvariant : Obligations.EveryStepKeepsTheInvariant := by
  intro s t h ht
  rcases step_cases ht with ⟨-, rfl⟩ | ⟨l, rest, -, hl⟩
  · exact h
  · exact inv_runLine h hl

/-- Settles O54: `State.reset` is the reset of the default parameters, which are legal. -/
theorem resetMeetsTheInvariant : Obligations.ResetMeetsTheInvariant :=
  ⟨inv_resetWith (by decide) _ _ _, fun _ k sc rp hp => inv_resetWith hp k sc rp⟩

/-! ### A command as an update chosen by its operands -/

/-- The update a command makes to the state when its operands are the parameters `p`, the input sequence `xs` and the
argument `v` (R62). -/
def commandUpdate (i : Instr) (p : Params) (xs : List Byte) (v : Word) : State → State :=
  match i with
  | .parse => deliverResult (parseHex p.ws xs)
  | .format => deliver (formatHex xs)
  | .crc => writeRes (computeCrc16Modbus xs)
  | .wire => writeOut (wireBytes v)
  | .swap => writeRes (swapped v)
  | .fullcmd => deliverResult (buildFullCommand p.ws xs)

/-- A command reads its operands and makes the update they choose. -/
theorem exec_eq_commandUpdate (i : Instr) (s : State) :
    exec i s = .next (commandUpdate i s.params s.input s.arg s) := by
  cases i <;> rfl

/-- No command changes its own operands. -/
theorem exec_sameOperands {i : Instr} {s t : State} (h : exec i s = .next t) : SameOperands t s := by
  rcases exec_cases h with ⟨xs, rfl, -⟩ | ⟨v, rfl, -⟩ | ⟨e, rfl, -⟩ <;> exact ⟨rfl, rfl, rfl⟩

/-- What a delivery reports depends on the output capacity alone. -/
theorem deliver_congr {s s' : State} (hp : s.params = s'.params) (xs : List Byte) :
    (deliver xs s).status = (deliver xs s').status ∧ (deliver xs s).out = (deliver xs s').out := by
  rcases deliver_cases xs s with ⟨hf, e⟩ | ⟨hf, e⟩ <;> rw [hp] at hf <;> rw [e]
  · rw [deliver_of_fits hf]; exact ⟨rfl, rfl⟩
  · rw [deliver_of_not_fits hf]; exact ⟨rfl, rfl⟩

theorem deliverResult_congr {s s' : State} (hp : s.params = s'.params) (r : Except FormatCause (List Byte)) :
    (deliverResult r s).status = (deliverResult r s').status ∧
      (deliverResult r s).out = (deliverResult r s').out := by
  cases r with
  | error c => exact ⟨rfl, rfl⟩
  | ok xs => exact deliver_congr hp xs

theorem deliver_idem (xs : List Byte) (s : State) : deliver xs (deliver xs s) = deliver xs s := by
  rcases deliver_cases xs s with ⟨hf, e⟩ | ⟨hf, e⟩ <;> rw [e]
  · exact deliver_of_fits (s := writeOut xs s) hf
  · exact deliver_of_not_fits (s := raiseError .capacity s) hf

theorem deliverResult_idem (r : Except FormatCause (List Byte)) (s : State) :
    deliverResult r (deliverResult r s) = deliverResult r s := by
  cases r with
  | error c => rfl
  | ok xs => exact deliver_idem xs s

theorem commandUpdate_idem (i : Instr) (p : Params) (xs : List Byte) (v : Word) (s : State) :
    commandUpdate i p xs v (commandUpdate i p xs v s) = commandUpdate i p xs v s := by
  cases i with
  | parse => exact deliverResult_idem _ s
  | format => exact deliver_idem _ s
  | crc => rfl
  | wire => rfl
  | swap => rfl
  | fullcmd => exact deliverResult_idem _ s

/-- Settles O29: equal operands choose one update, and what it reports depends on the parameters alone. -/
theorem resultsDependOnOperandsOnly : Obligations.ResultsDependOnOperandsOnly := by
  rintro i s s' t t' ⟨hp, hin, harg⟩ ht ht'
  rw [exec_eq_commandUpdate] at ht ht'
  rw [← hp, ← hin, ← harg] at ht'
  cases ht
  cases ht'
  cases i with
  | parse =>
    obtain ⟨hst, hout⟩ := deliverResult_congr hp (parseHex s.params.ws s.input)
    exact ⟨hst, by simp, fun _ => hout⟩
  | format =>
    obtain ⟨hst, hout⟩ := deliver_congr hp (formatHex s.input)
    exact ⟨hst, by simp, fun _ => hout⟩
  | crc => exact ⟨rfl, fun _ => rfl, by simp⟩
  | wire => exact ⟨rfl, by simp, fun _ => rfl⟩
  | swap => exact ⟨rfl, fun _ => rfl, by simp⟩
  | fullcmd =>
    obtain ⟨hst, hout⟩ := deliverResult_congr hp (buildFullCommand s.params.ws s.input)
    exact ⟨hst, by simp, fun _ => hout⟩

/-- Settles O30: a command keeps its operands, so it makes the same update again, and every update is idempotent. -/
theorem repeatingACommandChangesNothing : Obligations.RepeatingACommandChangesNothing := by
  intro i s t ht
  obtain ⟨hp, hin, harg⟩ := exec_sameOperands ht
  rw [exec_eq_commandUpdate] at ht ⊢
  rw [hp, hin, harg]
  cases ht
  rw [commandUpdate_idem]

/-! ### Which actions change each side -/

/-- A write to `CMD` leaves the parameters and the whole input side alone, whatever the code. -/
theorem issueCommand_frame {code : Byte} {s t : State} (h : issueCommand code s = .next t) :
    t.params = s.params ∧ t.arg = s.arg ∧ t.ilen = s.ilen ∧ t.readI = s.readI := by
  rcases issueCommand_cases code s with ⟨i, -, e⟩ | ⟨-, e⟩ <;> rw [e] at h
  · rcases exec_cases h with ⟨xs, rfl, -⟩ | ⟨v, rfl, -⟩ | ⟨e, rfl, -⟩ <;> exact ⟨rfl, rfl, rfl, rfl⟩
  · cases h; exact ⟨rfl, rfl, rfl, rfl⟩

/-- The one host action that can change each part of the engine; none changes the parameters (R12, R13, R26). -/
theorem perform_changes {a : HostAction} {s t : State} (h : perform a s = .next t) :
    t.params = s.params ∧ (t.arg ≠ s.arg → ∃ v, a = .setArg v) ∧ (t.ilen ≠ s.ilen → ∃ n, a = .setILen n) ∧
    (∀ j, t.readI j ≠ s.readI j → ∃ v, a = .writeI j v) ∧
    (t.out ≠ s.out ∨ t.res ≠ s.res ∨ t.status ≠ s.status → ∃ code, a = .issue code) := by
  rcases perform_cases h with
    ⟨i, v, rfl, -, rfl⟩ | ⟨n, rfl, -, rfl⟩ | ⟨v, rfl, rfl⟩ | ⟨code, rfl, hc⟩ | ⟨r, rfl, -⟩
  · refine ⟨rfl, by simp, by simp, fun j hj => ?_, by simp⟩
    have hji : j = i := by
      by_contra hne
      exact hj (hostWriteI_readI_other v s hne)
    exact ⟨v, by rw [hji]⟩
  · exact ⟨rfl, by simp, fun _ => ⟨n, rfl⟩, by simp, by simp⟩
  · exact ⟨rfl, fun _ => ⟨v, rfl⟩, by simp, fun _ hj => absurd rfl hj, by simp⟩
  · obtain ⟨hp, harg, hlen, hread⟩ := issueCommand_frame hc
    exact ⟨hp, absurd harg, absurd hlen, fun j => absurd (congrFun hread j), fun _ => ⟨code, rfl⟩⟩
  · exact ⟨rfl, by simp, by simp, by simp, by simp⟩

theorem eq_nil_of_textCodes {text : List Char} (h : textCodes text = some []) : text = [] := by
  cases text with
  | nil => rfl
  | cons c cs => simp [textCodes] at h

/-- Loading a sequence begins with a write of a cell, or with setting `ILEN` when the sequence is empty. -/
theorem loadActions_head {bs : List Byte} {a : HostAction} {more : List HostAction}
    (h : loadActions bs = a :: more) : (bs = [] ∧ ∃ n, a = .setILen n) ∨ ∃ i v, a = .writeI i v := by
  cases bs with
  | nil => cases h; exact .inl ⟨rfl, _, rfl⟩
  | cons b bs => cases h; exact .inr ⟨_, _, rfl⟩

/-- The first host action of each kind of line (R65). -/
theorem lineActions_head {l : ScriptLine} {s : State} {a : HostAction} {more : List HostAction}
    (h : lineActions l s = some (a :: more)) :
    l = .act a ∨ (∃ i, l = .command i ∧ a = .issue (encodeByte i)) ∨
    (∃ code, l = .rawCommand code ∧ a = .issue code) ∨ (∃ v, l = .ldarg v ∧ a = .setArg v) ∨
    ((l = .ldtxt [] ∨ l = .ldbytes []) ∧ ∃ n, a = .setILen n) ∨
    (((∃ x, l = .ldtxt x) ∨ ∃ x, l = .ldbytes x) ∧ ∃ i v, a = .writeI i v) ∨
    a = .readOLen ∨ a = .readRes ∨ a = .readStatus := by
  cases l with
  | act b => cases h; simp
  | command i => cases h; simp
  | rawCommand code => cases h; simp
  | ldarg v => cases h; simp
  | movoi => cases h; simp
  | ldargres => cases h; simp
  | stopIfError => cases h; simp
  | reset => cases h
  | ldtxt text =>
    obtain ⟨bs, htext, hload⟩ := Option.map_eq_some_iff.1 h
    rcases loadActions_head hload with ⟨rfl, n, rfl⟩ | ⟨i, v, rfl⟩
    · simp [eq_nil_of_textCodes htext]
    · simp
  | ldbytes bs =>
    rcases loadActions_head (Option.some.inj h) with ⟨rfl, n, rfl⟩ | ⟨i, v, rfl⟩ <;> simp

/-- Settles O56: a step is the reset event or the first action of the line, `perform_changes` names the action behind
each change, and `lineActions_head` the lines that begin with it. -/
theorem onlyTheNamedActionsChangeEachSide : Obligations.OnlyTheNamedActionsChangeEachSide := by
  intro s t l rest hs ht
  rw [step_of_script hs] at ht
  rcases runLine_cases ht with ⟨rfl, rfl⟩ | ⟨-, a, more, hacts, hp⟩
  · simp
  · obtain ⟨hparams, harg, hilen, hread, hout⟩ := perform_changes hp
    have hhead := lineActions_head hacts
    refine ⟨hparams, fun hne => .inr ?_, fun hne => .inr ?_, fun ⟨j, hne⟩ => .inr ?_, fun hne => .inr ?_⟩
    · obtain ⟨v, rfl⟩ := harg hne
      have hl : l = .act (.setArg v) ∨ l = .ldarg v := by simpa using hhead
      exact ⟨v, hl.symm⟩
    · obtain ⟨n, rfl⟩ := hilen hne
      have hl : l = .act (.setILen n) ∨ l = .ldtxt [] ∨ l = .ldbytes [] := by simpa using hhead
      rcases hl with hl | hl | hl <;> simp [hl]
    · obtain ⟨v, rfl⟩ := hread j hne
      have hl : l = .act (.writeI j v) ∨ (∃ x, l = .ldtxt x) ∨ ∃ x, l = .ldbytes x := by simpa using hhead
      rcases hl with hl | ⟨x, hl⟩ | ⟨x, hl⟩ <;> simp [hl]
    · obtain ⟨code, rfl⟩ := hout hne
      have hl : l = .act (.issue code) ∨ (∃ i, l = .command i ∧ code = encodeByte i) ∨ l = .rawCommand code := by
        simpa using hhead
      exact ⟨code, hl.imp_right Or.symm⟩

end Sys2Proof.Machine

/-! PROOFS. The state of the engine (10_state.md): its values after a reset, the host's reads and writes, the steps
of a line of the script, and the frame of the commands. -/

namespace Sys2Proof.Machine

/-! ### Each host action, inside its range and outside it (R13) -/

theorem perform_writeI_of_inSpace {i : Nat} {s : State} (h : inSpace s.params.icap i = true) (v : Byte) :
    perform (.writeI i v) s = .next (hostWriteI i v s) :=
  if_pos h

theorem perform_writeI_of_not_inSpace {i : Nat} {s : State} (h : inSpace s.params.icap i = false) (v : Byte) :
    perform (.writeI i v) s = .fault (.outsideSpace .I i) := by
  simp [perform, performWriteI, h]

theorem perform_setILen_of_fits {n : Nat} {s : State} (h : fits s.params.icap n = true) :
    perform (.setILen n) s = .next (hostSetILen n s) :=
  if_pos h

theorem perform_setILen_of_not_fits {n : Nat} {s : State} (h : fits s.params.icap n = false) :
    perform (.setILen n) s = .refused (.lengthAboveCapacity n) := by
  simp [perform, performSetILen, h]

theorem perform_readO_of_some {i : Nat} {v : Byte} {s : State} (h : s.out[i]? = some v) :
    perform (.readO i) s = .next (hostReceive (.outCell i v) s) := by
  simp [perform, performReadO, State.readO, h]

/-- Above the output sequence the refusal depends on whether the buffer has such a cell (R22, R45). -/
theorem perform_readO_of_none {i : Nat} {s : State} (h : s.out[i]? = none) :
    perform (.readO i) s =
      if inSpace s.params.ocap i then .refused (.unspecifiedOutputCell i) else .fault (.outsideSpace .O i) := by
  simp [perform, performReadO, State.readO, h]

theorem perform_readT_of_le {i : Nat} (s : State) (h : i ≤ 255) :
    perform (.readT i) s = .next (hostReceive (.tableCell i (readT (BitVec.ofNat 8 i))) s) :=
  if_pos h

theorem perform_readT_of_gt {i : Nat} (s : State) (h : 255 < i) :
    perform (.readT i) s = .fault (.outsideSpace .T i) :=
  if_neg (Nat.not_le.2 h)

theorem not_completes_fault (f : Fault) : ¬ Completes (.fault f) := nofun

theorem not_completes_refused (r : Refusal) : ¬ Completes (.refused r) := nofun

/-- Settles O9: read after write on the memory, at the cell written and at any other. -/
theorem hostWriteChangesOneInputCell : Obligations.HostWriteChangesOneInputCell := fun s i v h =>
  ⟨hostWriteI i v s, perform_writeI_of_inSpace h v, hostWriteI_readI_same i v s,
    fun _ hj => hostWriteI_readI_other v s hj, fun hwf => Memory.write_wf hwf i v, rfl⟩

/-- Settles O10: the two requests in their range are `hostSetILen` and `hostSetArg`. -/
theorem hostSetsLengthAndArgument : Obligations.HostSetsLengthAndArgument := fun _ _ _ =>
  ⟨perform_setILen_of_fits, rfl⟩

/-- Settles O12: outside its range each of the four requests is a fault or is refused. -/
theorem outOfRangeRequestsHaveNoMove : Obligations.OutOfRangeRequestsHaveNoMove := by
  intro s
  refine ⟨fun i v h => ?_, fun n h => ?_, fun i h => ?_, fun i h => ?_⟩
  · rw [perform_writeI_of_not_inSpace h]
    exact not_completes_fault _
  · rw [perform_setILen_of_not_fits h]
    exact not_completes_refused _
  · rw [perform_readO_of_none (List.getElem?_eq_none h)]
    split
    · exact not_completes_refused _
    · exact not_completes_fault _
  · rw [perform_readT_of_gt s h]
    exact not_completes_fault _

/-! ### The table and the reset values (R29) -/

/-- Each literal cell of `T` is the generator's value (R91). -/
theorem readT_eq_table : ∀ i : Byte, readT i = table i := by decide

/-- Settles O8: `resetWith` gives the lengths and `STATUS`, and `readT_eq_table` the table. -/
theorem resetLeavesTheStatedValues : Obligations.ResetLeavesTheStatedValues :=
  ⟨fun _ _ _ _ => ⟨rfl, rfl, word_ok, rfl⟩, readT_eq_table, rfl, rfl, rfl⟩

/-- Settles O11: every read in range is `hostReceive` of its value; the value of a read of `T` is the generator's. -/
theorem hostReadsReturnAndChangeNothing : Obligations.HostReadsReturnAndChangeNothing := by
  intro s
  refine ⟨fun i hi => ?_, rfl, rfl, rfl, fun i => ?_⟩
  · have hcell : s.out[i]? = some s.out[i] := List.getElem?_eq_getElem hi
    exact ⟨s.out[i], hcell, perform_readO_of_some hcell⟩
  · have hi : i.toNat ≤ 255 := Nat.le_of_lt_succ i.isLt
    rw [perform_readT_of_le s hi, BitVec.ofNat_toNat, BitVec.setWidth_eq, readT_eq_table]
    rfl

/-! ### The layout of `STATUS` (R24) -/

/-- Any two 2-bit fields under four zero bits are read back at bits 1:0 and 3:2. -/
theorem statusFields_append : ∀ c e : BitVec 2, ((0 : BitVec 4) ++ c ++ e).extractLsb' 0 2 = e ∧
    ((0 : BitVec 4) ++ c ++ e).extractLsb' 2 2 = c ∧ ((0 : BitVec 4) ++ c ++ e).extractLsb' 4 4 = 0 := by
  decide

theorem word_fields (st : Status) : st.word.extractLsb' 0 2 = st.err ∧ st.word.extractLsb' 2 2 = st.cause ∧
    st.word.extractLsb' 4 4 = 0 :=
  statusFields_append st.cause st.err

/-- The five values of `STATUS`: no error, the two causes of `InvalidFormat`, `Capacity`, `IllegalCommand`. -/
theorem status_cases (st : Status) :
    st = .ok ∨ st = .failed (.invalidFormat .oddLength) ∨ st = .failed (.invalidFormat .invalidDigit) ∨
    st = .failed .capacity ∨ st = .failed .illegalCommand := by
  rcases st with _ | (_ | _) | _ | _ <;> simp

/-- Settles O31: the fields are read off `Status.word`, the values in each of the five cases. -/
theorem statusHasFiveValues : Obligations.StatusHasFiveValues := by
  refine ⟨fun st => ?_, by decide⟩
  have hvalues : st.word ∈ ([0x00, 0x05, 0x09, 0x02, 0x03] : List Byte) ∧
      (st.cause ≠ 0 → st.err = 1) ∧ st.cause ≠ 3 := by
    rcases status_cases st with rfl | rfl | rfl | rfl | rfl <;> decide
  obtain ⟨hmem, herr, hcause⟩ := hvalues
  obtain ⟨hlow, hmid, htop⟩ := word_fields st
  exact ⟨hmem, hlow, hmid, htop, herr, hcause⟩

/-! ### The steps of a line (R65) -/

theorem decodeByte_encodeByte (i : Instr) : decodeByte (encodeByte i) = some i := by cases i <;> rfl

theorem perform_issue_of_decode {code : Byte} {i : Instr} (h : decodeByte code = some i) (s : State) :
    perform (.issue code) s = exec i s := by
  simp [perform, issueCommand, h]

/-- A step on a line other than the reset event performs the first action of the line and leaves the others at the
front of the script. -/
theorem step_of_actions {s : State} {l : ScriptLine} {rest : List ScriptLine} {a : HostAction}
    {more : List HostAction} (hs : s.script = l :: rest) (hl : l ≠ .reset)
    (h : lineActions l s = some (a :: more)) :
    step s = perform a (withScript (more.map .act ++ restAfter l rest s) s) := by
  rw [step_of_script hs, runLine_of_actions hl h]

/-- Settles O5: each of the three spellings stands for the one action `HIssue`. -/
theorem stepRunsTheIssuedCommand : Obligations.StepRunsTheIssuedCommand := by
  intro s code i rest hcode
  refine ⟨fun hs => ?_, fun hs => ?_, fun hs => ?_⟩
  · exact (step_of_actions hs nofun rfl).trans (perform_issue_of_decode hcode _)
  · exact (step_of_actions hs nofun rfl).trans (perform_issue_of_decode hcode _)
  · exact (step_of_actions hs nofun rfl).trans (perform_issue_of_decode (decodeByte_encodeByte i) _)

/-- A run of actions that has a move starts with an action that has one. -/
theorem performAll_cons {a : HostAction} {more : List HostAction} {s t : State}
    (h : performAll (a :: more) s = .next t) : ∃ u, perform a s = .next u ∧ performAll more u = .next t := by
  simp only [performAll] at h
  split at h
  · next u hu => exact ⟨u, hu, h⟩
  · cases h
  · cases h

theorem performAll_script {acts : List HostAction} {s t : State} (h : performAll acts s = .next t) :
    t.script = s.script := by
  induction acts generalizing s with
  | nil => cases h; rfl
  | cons a more ih =>
    obtain ⟨u, hu, hmore⟩ := performAll_cons h
    rw [ih hmore, perform_script hu]

theorem run_succ_of_step {n : Nat} {s u : State} (h : step s = .next u) :
    Host.Core.run core (n + 1) s = Host.Core.run core n u := by
  have hstep : core.step s = .next u := h
  simp only [Host.Core.run, hstep]

/-- Actions at the front of the script run one a step, and what is behind them is left. -/
theorem run_of_performAll {acts : List HostAction} {s t : State} (h : performAll acts s = .next t) :
    Host.Core.run core acts.length (withScript (acts.map .act ++ s.script) s) = .next t := by
  induction acts generalizing s with
  | nil => exact h
  | cons a more ih =>
    obtain ⟨u, hu, hmore⟩ := performAll_cons h
    have hstep : step (withScript ((a :: more).map .act ++ s.script) s) =
        .next (withScript (more.map .act ++ u.script) u) := by
      rw [perform_script hu]
      exact (step_of_actions (l := .act a) rfl nofun rfl).trans (perform_withScript hu _)
    rw [List.length_cons, run_succ_of_step hstep, ih hmore]

/-- Settles O16: the first step performs the line's first action, and `run_of_performAll` the others. -/
theorem stepsPerformTheLinesActions : Obligations.StepsPerformTheLinesActions := by
  intro s t l rest acts hs hl hacts ht
  refine ⟨?_, performAll_script ht⟩
  obtain ⟨a, more, rfl⟩ := List.exists_cons_of_ne_nil (lineActions_ne_nil hl hacts)
  obtain ⟨u, hu, hmore⟩ := performAll_cons ht
  have hscript : u.script = restAfter l rest s := perform_script hu
  have hstep : step s = .next (withScript (more.map .act ++ u.script) u) := by
    rw [step_of_actions hs hl hacts, hscript]
    exact perform_withScript hu _
  rw [List.length_cons, run_succ_of_step hstep, run_of_performAll hmore]

/-! ### The frame of the commands (R12, R17) -/

/-- Settles O26: a command writes `OUT`, writes `RES` or raises an error, and none of these touches the input side. -/
theorem commandsLeaveTheInputSide : Obligations.CommandsLeaveTheInputSide := by
  intro i s t ht
  rcases exec_cases ht with ⟨xs, rfl, -⟩ | ⟨v, rfl, -⟩ | ⟨e, rfl, -⟩ <;>
    exact ⟨fun _ => rfl, rfl, rfl, rfl, rfl, rfl, rfl, rfl⟩

/-- Settles O27: CRC and SWAP are a write of `RES`, and no other command is one. -/
theorem commandsWriteOnlyTheirOwnResult : Obligations.CommandsWriteOnlyTheirOwnResult := by
  intro i s t ht
  refine ⟨?_, fun hi => ?_⟩
  · rintro (rfl | rfl) <;> cases ht <;> exact ⟨rfl, fun _ => rfl⟩
  · rcases exec_cases ht with ⟨xs, rfl, -⟩ | ⟨v, rfl, hcs⟩ | ⟨e, rfl, -⟩
    · rfl
    · rcases hcs with rfl | rfl <;> simp at hi
    · rfl

/-! ### The commands right after a reset (R29, R183) -/

theorem input_of_ilen_zero {s : State} (h : s.ilen = 0) : s.input = [] := by simp [State.input, h]

theorem parseHex_nil (ws : List Byte) : parseHex ws [] = .ok [] := rfl

/-- The full command of no bytes is the checksum 0xFFFF alone, "FF FF". -/
theorem buildFullCommand_nil (ws : List Byte) :
    buildFullCommand ws [] = .ok [0x46, 0x46, 0x20, 0x46, 0x46] := by
  rw [buildFullCommand_of_parseHex (parseHex_nil ws)]
  rfl

theorem writeOut_of_ok {s : State} (h : s.status = .ok) (xs : List Byte) : writeOut xs s = { s with out := xs } := by
  simp [writeOut, ← h]

theorem writeRes_of_ok {s : State} (h : s.status = .ok) (v : Word) : writeRes v s = { s with res := v } := by
  simp [writeRes, ← h]

/-- Delivering no cell to an empty output buffer whose `STATUS` is 0x00 changes nothing. -/
theorem deliver_nil_of_empty {s : State} (hout : s.out = []) (hok : s.status = .ok) : deliver [] s = s := by
  rw [deliver_of_fits (fits_zero _), writeOut_of_ok hok, ← hout]

/-- Settles O57: the input sequence is empty, so PARSE and FORMAT deliver nothing and the others their result on it
or on `ARG`, with `STATUS` 0x00 already. -/
theorem commandsRightAfterReset : Obligations.CommandsRightAfterReset := by
  rintro s ⟨hilen, holen, hok⟩
  have hin : s.input = [] := input_of_ilen_zero hilen
  have hout : s.out = [] := List.eq_nil_of_length_eq_zero holen
  simp only [exec_eq_commandUpdate, hin, Host.Outcome.next.injEq]
  refine ⟨?_, ?_, ?_, ?_, ?_, fun hf => ?_⟩
  · exact deliver_nil_of_empty hout hok
  · exact deliver_nil_of_empty hout hok
  · exact writeRes_of_ok hok _
  · exact writeOut_of_ok hok _
  · exact writeRes_of_ok hok _
  · calc deliverResult (buildFullCommand s.params.ws []) s
        = deliver [0x46, 0x46, 0x20, 0x46, 0x46] s := by rw [buildFullCommand_nil]; rfl
      _ = writeOut [0x46, 0x46, 0x20, 0x46, 0x46] s := deliver_of_fits hf
      _ = { s with out := [0x46, 0x46, 0x20, 0x46, 0x46] } := writeOut_of_ok hok _

end Sys2Proof.Machine

/-! PROOFS. The encoding (30_encoding.md): the codes of the commands, the lines of a listing that move data between the
two sides of the engine, and the text forms of a byte sequence. -/

namespace Sys2Proof.Machine

/-! ### The codes of the commands (R60, R61, R63) -/

/-- A code decodes to a command exactly when it is the command's own. -/
theorem decodeByte_eq_some_iff {code : Byte} {i : Instr} : decodeByte code = some i ↔ code = encodeByte i := by
  constructor
  · revert code
    cases i <;> decide
  · rintro rfl
    exact decodeByte_encodeByte i

/-- The reserved codes (R63). -/
theorem decodeByte_eq_none_iff : ∀ code : Byte, decodeByte code = none ↔ (code = 0x00 ∨ 0x07 ≤ code) := by decide

/-- The decoder takes the first byte, when it is the code of a command, and leaves the others. -/
theorem decode_eq_ok_iff {bytes rest : List Byte} {i : Instr} :
    decode bytes = .ok (i, rest) ↔ bytes = encodeByte i :: rest := by
  cases bytes with
  | nil => simp [decode]
  | cons code tail =>
    rw [List.cons.injEq, ← decodeByte_eq_some_iff]
    cases hcode : decodeByte code with
    | none => simp [decode, hcode]
    | some j => simp [decode, hcode]

/-- Settles O1: the word of a command is its code, which `decode_eq_ok_iff` reads back. -/
theorem decodeOfEncodeIsTheCommand : Obligations.DecodeOfEncodeIsTheCommand := fun _ _ =>
  decode_eq_ok_iff.2 rfl

/-- Settles O2: `decode_eq_ok_iff`, with the code of each of the six commands written out. -/
theorem decoderComparesTheWholeByte : Obligations.DecoderComparesTheWholeByte := by
  intro bytes i rest
  rw [decode_eq_ok_iff]
  cases i <;> simp [encodeByte, and_comm]

/-- Settles O3: the eight words are decoded. -/
theorem tableWordsDecode : Obligations.TableWordsDecode := by
  refine ⟨?_, ?_, ?_, ?_, ?_, ?_, ?_, ?_⟩ <;> rfl

theorem perform_issue_of_reserved {code : Byte} (h : decodeByte code = none) (s : State) :
    perform (.issue code) s = .next (raiseError .illegalCommand s) := by
  simp [perform, issueCommand, h]

theorem word_illegalCommand : (Status.failed .illegalCommand).word = 0x03 := by decide

/-- Settles O4: a reserved code decodes to no command, so a write of it raises `IllegalCommand`. -/
theorem reservedCodeRaisesIllegalCommand : Obligations.ReservedCodeRaisesIllegalCommand :=
  ⟨decodeByte_eq_none_iff, fun code s h =>
    ⟨_, perform_issue_of_reserved ((decodeByte_eq_none_iff code).2 h) s, rfl, word_illegalCommand, rfl⟩⟩

/-! ### Writing consecutive input cells (R65) -/

/-- The memory after the bytes are written to consecutive cells from the index `k` up, in order. -/
def Memory.writeFrom (m : Memory) (k : Nat) : List Byte → Memory
  | [] => m
  | b :: bs => (m.write k b).writeFrom (k + 1) bs

theorem Memory.read_writeFrom_outside {j k : Nat} {bs : List Byte} (m : Memory) (h : j < k ∨ k + bs.length ≤ j) :
    (m.writeFrom k bs).read j = m.read j := by
  induction bs generalizing m k with
  | nil => rfl
  | cons b bs ih =>
    simp only [List.length_cons] at h
    rw [writeFrom, ih _ (by omega), Memory.read_write_other m b (by omega)]

theorem Memory.read_writeFrom_inside {i k : Nat} {b : Byte} {bs : List Byte} (m : Memory) (h : bs[i]? = some b) :
    (m.writeFrom k bs).read (k + i) = some b := by
  induction bs generalizing m k i with
  | nil => simp at h
  | cons c bs ih =>
    cases i with
    | zero =>
      have hcb : c = b := by simpa using h
      rw [writeFrom, Memory.read_writeFrom_outside _ (by omega), hcb, Nat.add_zero, Memory.read_write_same]
    | succ i =>
      rw [writeFrom, show k + (i + 1) = k + 1 + i by omega]
      exact ih _ (by simpa using h)

/-- The bytes written from cell 0 up, as many as `ILEN` says, are the input sequence. -/
theorem input_of_writeFrom {t : State} {m : Memory} {bs : List Byte} (hm : t.ibuf = m.writeFrom 0 bs)
    (hn : t.ilen = bs.length) : t.input = bs := by
  apply List.ext_getElem
  · rw [input_length, hn]
  · intro i _ hi
    have hread := Memory.read_writeFrom_inside (k := 0) m (List.getElem?_eq_getElem hi)
    rw [Nat.zero_add] at hread
    simp [State.input, State.readI, hm, hread]

theorem performAll_cons_of_next {a : HostAction} {s u : State} (h : perform a s = .next u) (more : List HostAction) :
    performAll (a :: more) s = performAll more u := by
  simp only [performAll, h]

theorem performAll_writeActions {k : Nat} {bs : List Byte} {s : State}
    (h : fits s.params.icap (k + bs.length) = true) :
    performAll (writeActions k bs) s = .next { s with ibuf := s.ibuf.writeFrom k bs } := by
  induction bs generalizing k s with
  | nil => rfl
  | cons b bs ih =>
    have hk : inSpace s.params.icap k = true := inSpace_of_lt_of_fits (by simp) h
    have hrest : fits s.params.icap (k + 1 + bs.length) = true := by
      rw [Nat.add_right_comm]
      exact h
    rw [writeActions, performAll_cons_of_next (perform_writeI_of_inSpace hk b), ih (s := hostWriteI k b s) hrest]
    rfl

/-- Copying the cells of `OUT` from the index `k` up writes them to the same cells of `IBUF`; the reads between the
writes leave replies only. -/
theorem performAll_copyActions {k : Nat} {bs : List Byte} {s : State} (hout : s.out.drop k = bs)
    (h : fits s.params.icap (k + bs.length) = true) :
    ∃ rp, performAll (copyActions k bs) s = .next { s with ibuf := s.ibuf.writeFrom k bs, replies := rp } := by
  induction bs generalizing k s with
  | nil => exact ⟨s.replies, rfl⟩
  | cons b bs ih =>
    have hcell : s.out[k]? = some b := by rw [← List.head?_drop, hout]; rfl
    have htail : s.out.drop (k + 1) = bs := by rw [← List.tail_drop, hout]; rfl
    have hk : inSpace s.params.icap k = true := inSpace_of_lt_of_fits (by simp) h
    have hrest : fits s.params.icap (k + 1 + bs.length) = true := by
      rw [Nat.add_right_comm]
      exact h
    obtain ⟨rp, hrp⟩ := ih (s := hostWriteI k b (hostReceive (.outCell k b) s)) htail hrest
    refine ⟨rp, ?_⟩
    rw [copyActions, performAll_cons_of_next (perform_readO_of_some hcell),
      performAll_cons_of_next (perform_writeI_of_inSpace (s := hostReceive _ s) hk b), hrp]
    rfl

theorem performAll_setILen {n : Nat} {s : State} (h : fits s.params.icap n = true) :
    performAll [.setILen n] s = .next { s with ilen := n } :=
  performAll_cons_of_next (perform_setILen_of_fits h) []

theorem performAll_loadActions {bs : List Byte} {s : State} (h : fits s.params.icap bs.length = true) :
    performAll (loadActions bs) s = .next { s with ibuf := s.ibuf.writeFrom 0 bs, ilen := bs.length } := by
  have hwrites := performAll_writeActions (k := 0) (bs := bs) (s := s) (by rwa [Nat.zero_add])
  rw [loadActions, performAll_append hwrites]
  exact performAll_setILen h

/-- Settles O13: the writes fill the cells below the number of bytes and no other, and `ILEN` is set last. -/
theorem loadedBytesAreTheInput : Obligations.LoadedBytesAreTheInput := by
  intro s bs h
  refine ⟨_, performAll_loadActions h, input_of_writeFrom rfl rfl, fun j hj => ?_, rfl⟩
  have hread : (s.ibuf.writeFrom 0 bs).read j = s.ibuf.read j :=
    Memory.read_writeFrom_outside s.ibuf (.inr (by omega))
  simp only [State.readI, hread]

/-- Settles O14: after the read of `OLEN`, copying all of `OUT` and setting `ILEN` is loading it, replies aside. -/
theorem movoiCopiesTheOutput : Obligations.MovoiCopiesTheOutput := by
  rintro s acts hacts h
  cases hacts
  obtain ⟨rp, hcopy⟩ := performAll_copyActions (k := 0) (s := hostReceive (.outLen s.olen) s) rfl
    (by rwa [Nat.zero_add])
  refine ⟨{ s with ibuf := s.ibuf.writeFrom 0 s.out, ilen := s.olen, replies := rp }, ?_, input_of_writeFrom rfl rfl, rfl⟩
  rw [performAll_cons_of_next (a := .readOLen) rfl]
  exact (performAll_append hcopy _).trans (performAll_setILen h)

/-- Settles O15: the two actions of the line are a read of `RES` and a write of `ARG`, and both always have a move. -/
theorem ldargresCopiesTheResult : Obligations.LdargresCopiesTheResult := fun _ => ⟨_, rfl, rfl⟩

/-! ### The canonical texts (R76, R107) -/

/-- Two uppercase digits are the pair of a byte. -/
theorem exists_hex2_of_isUpperDigit {c0 c1 : Byte} (h0 : isUpperDigit c0 = true) (h1 : isUpperDigit c1 = true) :
    ∃ b, hex2 b = [c0, c1] := by
  obtain ⟨m, rfl⟩ := exists_hexdigit_of_isUpperDigit c0 h0
  obtain ⟨n, rfl⟩ := exists_hexdigit_of_isUpperDigit c1 h1
  obtain ⟨b, rfl, rfl⟩ := exists_byte_of_nibbles m n
  exact ⟨b, rfl⟩

theorem isCanonicalTail_spacedPairs (B : List Byte) : isCanonicalTail (spacedPairs B) = true := by
  induction B with
  | nil => rfl
  | cons b B ih => simp [spacedPairs, hex2, isCanonicalTail, isUpperDigit_hexdigit, ih]

theorem isCanonicalText_formatHex (B : List Byte) : isCanonicalText (formatHex B) = true := by
  cases B with
  | nil => rfl
  | cons b B => simp [formatHex, hex2, isCanonicalText, isUpperDigit_hexdigit, isCanonicalTail_spacedPairs]

theorem exists_spacedPairs_of_isCanonicalTail {T : List Byte} (h : isCanonicalTail T = true) :
    ∃ B, T = spacedPairs B := by
  induction T using isCanonicalTail.induct with
  | case1 => exact ⟨[], rfl⟩
  | case2 sp c0 c1 T ih =>
    simp only [isCanonicalTail, Bool.and_eq_true, beq_iff_eq] at h
    obtain ⟨⟨⟨rfl, h0⟩, h1⟩, hT⟩ := h
    obtain ⟨b, hb⟩ := exists_hex2_of_isUpperDigit h0 h1
    obtain ⟨B, rfl⟩ := ih hT
    exact ⟨b :: B, by simp [spacedPairs, hb]⟩
  | case3 T hnil hcons => simp [isCanonicalTail] at h

theorem exists_formatHex_of_isCanonicalText {T : List Byte} (h : isCanonicalText T = true) :
    ∃ B, T = formatHex B := by
  match T, h with
  | [], _ => exact ⟨[], rfl⟩
  | c0 :: c1 :: T, h =>
    simp only [isCanonicalText, Bool.and_eq_true] at h
    obtain ⟨⟨h0, h1⟩, hT⟩ := h
    obtain ⟨b, hb⟩ := exists_hex2_of_isUpperDigit h0 h1
    obtain ⟨B, rfl⟩ := exists_spacedPairs_of_isCanonicalTail hT
    exact ⟨b :: B, by simp [formatHex, hb]⟩

/-- A formatted text parses to the bytes it was made from (R111). -/
theorem parseHex_formatHex {p : Params} (h : p.wellFormed = true) (B : List Byte) :
    parseHex p.ws (formatHex B) = .ok B :=
  parseHex_of_parsePairs (by rw [strip_formatHex h, parsePairs_digits])

/-- Settles O37: the canonical texts are the formatted ones, and those parse. -/
theorem canonicalTextsAreFormatted : Obligations.CanonicalTextsAreFormatted := by
  refine fun T => ⟨⟨exists_formatHex_of_isCanonicalText, ?_⟩, fun hT p hp => ?_⟩
  · rintro ⟨B, rfl⟩
    exact isCanonicalText_formatHex B
  · obtain ⟨B, rfl⟩ := exists_formatHex_of_isCanonicalText hT
    exact ⟨B, parseHex_formatHex hp B⟩

/-- Settles O36: a canonical text is `formatHex` of some bytes, and these are the ones it parses to. -/
theorem formatOfParseIsCanonical : Obligations.FormatOfParseIsCanonical := by
  refine fun p T B hp hparse => ⟨isCanonicalText_formatHex B, ?_, fun hT => ?_⟩
  · rintro rfl
    exact isCanonicalText_formatHex B
  · obtain ⟨B', rfl⟩ := exists_formatHex_of_isCanonicalText hT
    have hbytes : B' = B := by simpa [parseHex_formatHex hp] using hparse
    rw [hbytes]

/-! ### What a parse sees of its text (R106) -/

/-- The pairs of a text depend on the values of its characters alone. -/
theorem parsePairs_congr {u v : List Byte} (h : u.map hexval = v.map hexval) : parsePairs u = parsePairs v := by
  induction u using pairs_induction generalizing v with
  | nil => rw [List.map_eq_nil_iff.1 h.symm]
  | single c =>
    obtain ⟨d, v', rfl, -, hv⟩ := List.map_eq_cons_iff.1 h.symm
    rw [List.map_eq_nil_iff.1 hv]
    rfl
  | pair c0 c1 u ih =>
    obtain ⟨d0, v', rfl, h0, hv'⟩ := List.map_eq_cons_iff.1 h.symm
    obtain ⟨d1, v, rfl, h1, hv⟩ := List.map_eq_cons_iff.1 hv'
    simp only [parsePairs, pairval, h0, h1, ih hv.symm]

theorem parseHex_congr {ws s s' : List Byte} (h : (strip ws s).map hexval = (strip ws s').map hexval) :
    parseHex ws s = parseHex ws s' := by
  have hlen : (strip ws s).length = (strip ws s').length := by simpa using congrArg List.length h
  simp only [parseHex, hlen, parsePairs_congr h]

/-- Two characters are the same, or are digits of the same value. -/
def SameCharOrValue (c c' : Byte) : Prop := c = c' ∨ (hexval c ≠ none ∧ hexval c = hexval c')

/-- Since no digit is whitespace, stripping keeps or drops both of two characters of the same value. -/
theorem map_hexval_strip_congr {p : Params} (hp : p.wellFormed = true) {s s' : List Byte}
    (h : List.Forall₂ SameCharOrValue s s') : (strip p.ws s).map hexval = (strip p.ws s').map hexval := by
  induction h with
  | nil => rfl
  | @cons c c' s s' hc _ ih =>
    rcases hc with rfl | ⟨hdigit, hval⟩
    · cases hw : isWhitespace p.ws c with
      | true => rw [strip_cons_of_ws hw, strip_cons_of_ws hw, ih]
      | false => rw [strip_cons_of_not_ws hw, strip_cons_of_not_ws hw, List.map_cons, List.map_cons, ih]
    · have hsome : (hexval c).isSome = true := Option.isSome_iff_ne_none.2 hdigit
      rw [strip_cons_of_not_ws (not_isWhitespace_of_digit hp hsome),
        strip_cons_of_not_ws (not_isWhitespace_of_digit hp (hval ▸ hsome)), List.map_cons, List.map_cons, hval, ih]

/-- Settles O40: the two stripped texts have the same values, and a parse depends on these alone. -/
theorem parseIsBlindToCase : Obligations.ParseIsBlindToCase := fun _ _ _ hp h =>
  parseHex_congr (map_hexval_strip_congr hp h)

/-! ### The accepted texts (R77) -/

/-- A text parses exactly when what is left of it is digits, and an even number of them. -/
theorem parseHex_ok_iff {ws s : List Byte} : (∃ B, parseHex ws s = .ok B) ↔
    (∀ c ∈ strip ws s, hexval c ≠ none) ∧ (strip ws s).length % 2 = 0 := by
  constructor
  · rintro ⟨B, hB⟩
    have hpairs := parsePairs_of_parseHex hB
    exact ⟨digits_of_parsePairs hpairs, by rw [parsePairs_length hpairs]; omega⟩
  · rintro ⟨hdigits, heven⟩
    rw [parseHex_of_even heven]
    exact parsePairs_ok_of_digits heven hdigits

theorem forall_strip_digit_iff {ws s : List Byte} :
    (∀ c ∈ strip ws s, hexval c ≠ none) ↔ ∀ c ∈ s, hexval c ≠ none ∨ c ∈ ws := by
  simp only [strip, isWhitespace, List.mem_filter, Bool.not_eq_true', List.contains_eq_mem, decide_eq_false_iff_not]
  exact forall_congr' fun c => ⟨fun h hc => or_iff_not_imp_right.2 fun hw => h ⟨hc, hw⟩,
    fun h hc => (h hc.1).resolve_right hc.2⟩

/-- When every character is a digit or whitespace, what is left after stripping is the digits. -/
theorem strip_length_eq_countP {p : Params} (hp : p.wellFormed = true) {s : List Byte}
    (h : ∀ c ∈ s, hexval c ≠ none ∨ c ∈ p.ws) : (strip p.ws s).length = s.countP fun c => (hexval c).isSome := by
  rw [List.countP_eq_length_filter, strip]
  congr 1
  refine List.filter_congr fun c hc => ?_
  cases hv : hexval c with
  | none => simpa [isWhitespace, hv] using h c hc
  | some v => simp [not_isWhitespace_of_digit hp (c := c) (by simp [hv])]

/-- Settles O42: the two conditions of `parseHex_ok_iff`, said of the text itself. -/
theorem acceptedLanguage : Obligations.AcceptedLanguage := by
  intro p s hp
  rw [parseHex_ok_iff, forall_strip_digit_iff]
  exact and_congr_right fun h => by rw [strip_length_eq_countP hp h]

/-! ### The digits of the swapped form (R133) -/

theorem highByte_swapped (c : Word) : highByte (swapped c) = lowByte c := by
  apply BitVec.eq_of_getLsbD_eq
  intro i hi
  simp [highByte, lowByte, hi, swapped_getLsbD c (show 8 + i < 16 by omega), show (8 + i + 8) % 16 = i by omega]

theorem lowByte_swapped (c : Word) : lowByte (swapped c) = highByte c := by
  apply BitVec.eq_of_getLsbD_eq
  intro i hi
  simp [highByte, lowByte, hi, swapped_getLsbD c (show i < 16 by omega), show (i + 8) % 16 = 8 + i by omega]

/-- The bits of the high byte are those of the value, eight places up. -/
theorem extractLsb'_highByte (v : Word) {k : Nat} (hk : k + 4 ≤ 8) :
    (highByte v).extractLsb' k 4 = v.extractLsb' (8 + k) 4 := by
  apply BitVec.eq_of_getLsbD_eq
  intro i hi
  simp [highByte, hi, show k + i < 8 by omega, Nat.add_assoc]

/-- The four digits of a 16-bit value are those of its high byte and of its low byte. -/
theorem hex4_eq_hex2_append (v : Word) : hex4 v = hex2 (highByte v) ++ hex2 (lowByte v) := by
  simp [hex4, hex2, highNibble, lowNibble, lowByte, extractLsb'_highByte, BitVec.extractLsb'_extractLsb'_of_le]

/-- Joining two pairs by a space and taking the spaces out again leaves the four digits. -/
theorem filter_not_space_formatHex_pair (a b : Byte) :
    (formatHex [a, b]).filter (fun c => c != 0x20) = hex2 a ++ hex2 b := by
  have hdigit : ∀ n : Nibble, (hexdigit n != 32#8) = true := by decide
  have hpair (x : Byte) : (hex2 x).filter (fun c => c != 0x20) = hex2 x :=
    List.filter_eq_self.2 (by simp [hex2, -bne_iff_ne, hdigit])
  calc (formatHex [a, b]).filter (fun c => c != 0x20)
      = (hex2 a).filter (fun c => c != 0x20) ++ (hex2 b).filter (fun c => c != 0x20) := by
        simp [formatHex, spacedPairs, space]
    _ = hex2 a ++ hex2 b := by rw [hpair, hpair]

theorem hex4_swapped (c : Word) : hex4 (swapped c) = hex2 (lowByte c) ++ hex2 (highByte c) := by
  rw [hex4_eq_hex2_append, highByte_swapped, lowByte_swapped]

/-- Settles O49: `hex4_swapped`, and the text of the two wire bytes without its space is the same four digits. -/
theorem displayLaw : Obligations.DisplayLaw := by
  refine ⟨hex4_swapped, fun s t u ht hu => ?_⟩
  cases ht
  cases hu
  calc hex4 (swapped s.arg)
      = hex2 (lowByte s.arg) ++ hex2 (highByte s.arg) := hex4_swapped s.arg
    _ = (formatHex (wireBytes s.arg)).filter (fun c => c != 0x20) :=
        (filter_not_space_formatHex_pair (lowByte s.arg) (highByte s.arg)).symm

end Sys2Proof.Machine

/-!
PROOFS. The statements of the table (40_table.md): the literal cells against the generator, linearity, the left-shifting
formulation; and the checksum as a division one bit at a time.
-/
namespace Sys2Proof.Machine

/-! ### Linearity (R92) and the literal cells (R91) -/

theorem readT_xor (a b : Byte) : readT (a ^^^ b) = readT a ^^^ readT b := by
  simp only [readT_eq_table, table, BitVec.setWidth_xor, rounds_xor]

/-- Settles O33: `readT_xor`, and the listed cells. -/
theorem tableIsLinear : Obligations.TableIsLinear :=
  ⟨readT_xor, readT_zero, rfl, rfl, rfl, rfl, rfl, rfl, rfl, rfl⟩

/-- Only cell 0 of `T` is zero. -/
theorem eq_zero_of_readT_eq_zero : ∀ i : Byte, readT i = 0#16 → i = 0#8 := by decide

/-- The table is linear and only its cell 0 is zero, so its values are pairwise different. -/
theorem readT_injective (a b : Byte) (h : readT a = readT b) : a = b :=
  BitVec.xor_eq_zero_iff.1 (eq_zero_of_readT_eq_zero _ (by rw [readT_xor, h, BitVec.xor_self]))

/-- The sum R91 gives to check a transcription, added up over the four blocks of lines. -/
theorem tableCells_sum : (tableCells.map BitVec.toNat).sum = 8380544 := by
  simp only [tableCells, List.map_append, List.sum_append]
  rfl

/-- The XOR R91 gives to check a transcription: each of the four blocks of lines cancels by itself. -/
theorem tableCells_foldl_xor : tableCells.foldl (· ^^^ ·) 0 = 0 := by
  have h0 : tableRows0.foldl (· ^^^ ·) 0 = 0 := by decide
  have h1 : tableRows1.foldl (· ^^^ ·) 0 = 0 := by decide
  have h2 : tableRows2.foldl (· ^^^ ·) 0 = 0 := by decide
  have h3 : tableRows3.foldl (· ^^^ ·) 0 = 0 := by decide
  simp only [tableCells, List.foldl_append, h0, h1, h2, h3]

/-- Settles O32: the cells are the generator's, linearity makes them different, the two totals are computed. -/
theorem tableCellsAreGenerated : Obligations.TableCellsAreGenerated :=
  ⟨tableCells_length, readT_eq_table, readT_injective, tableCells_sum, tableCells_foldl_xor⟩

/-! ### The left-shifting formulation (R93) -/

theorem reverse_ushiftRight_one (r : Word) : (r >>> 1).reverse = r.reverse <<< 1 := by
  apply BitVec.eq_of_getMsbD_eq
  intro i hi
  simp [BitVec.getMsbD_reverse, BitVec.getMsbD_shiftLeft, Nat.add_comm]

theorem reverse_xor (a b : Word) : (a ^^^ b).reverse = a.reverse ^^^ b.reverse := by
  apply BitVec.eq_of_getMsbD_eq
  intro i hi
  simp [BitVec.getMsbD_reverse]

/-- A left round of the reversed register is the reversed round: its bit 15 is the register's bit 0, and 0x8005 is
0xA001 reversed. -/
theorem leftRound_reverse (r : Word) : leftRound r.reverse = (tableRound r).reverse := by
  have hbit : r.reverse.getLsbD 15 = r.getLsbD 0 := by
    rw [BitVec.getLsbD_reverse]
    rfl
  have hpoly : (0xA001 : Word).reverse = 0x8005 := by decide
  simp only [leftRound, tableRound, hbit]
  split
  · rw [reverse_xor, reverse_ushiftRight_one, hpoly]
  · rw [reverse_ushiftRight_one]

theorem rounds_leftRound_reverse (n : Nat) (r : Word) :
    rounds leftRound n r.reverse = (rounds tableRound n r).reverse := by
  induction n generalizing r with
  | zero => rfl
  | succ n ih => simp only [rounds, leftRound_reverse, ih]

/-- The reversed index in the high byte is the index reversed as a 16-bit value. -/
theorem reverse_setWidth_shiftLeft (i : Byte) : i.reverse.setWidth 16 <<< 8 = (i.setWidth 16).reverse := by
  apply BitVec.eq_of_getMsbD_eq
  intro k hk
  simp [BitVec.getMsbD_reverse, BitVec.getMsbD_shiftLeft, BitVec.getMsbD_setWidth, hk]

/-- Settles O34: the left rounds run on the reversed register, which the last step reverses back. -/
theorem leftShiftingGivesTheSameTable : Obligations.LeftShiftingGivesTheSameTable := by
  intro i
  calc tableByLeftShifts i
      = (rounds leftRound 8 (i.setWidth 16).reverse).reverse := by
        rw [tableByLeftShifts, reverse_setWidth_shiftLeft]
    _ = table i := by rw [rounds_leftRound_reverse, BitVec.reverse_reverse_eq, table]
    _ = readT i := (readT_eq_table i).symm

/-! ### The checksum one bit at a time -/

/-- Eight rounds of a register: its high byte shifted down, and the cell its low byte selects. -/
theorem rounds_eq_highByte_xor_readT (R : Word) :
    rounds tableRound 8 R = (highByte R).setWidth 16 ^^^ readT (lowByte R) := by
  calc rounds tableRound 8 R
      = rounds tableRound 8 ((highByte R).setWidth 16 <<< 8) ^^^ rounds tableRound 8 ((lowByte R).setWidth 16) := by
        rw [← rounds_xor, ← split_bytes]
    _ = (highByte R).setWidth 16 ^^^ readT (lowByte R) := by
        rw [rounds_of_lowByte_zero, readT_eq_table, table]

/-- One lookup is eight rounds of the register with the byte XORed in. -/
theorem crcStep_eq_rounds (R : Word) (b : Byte) : crcStep R b = rounds tableRound 8 (R ^^^ b.setWidth 16) := by
  rw [rounds_eq_highByte_xor_readT, crcStep_eq, shift_eq_highByte, highByte_xor, lowByte_xor, highByte_setWidth,
    lowByte_setWidth, BitVec.xor_zero]

/-- Settles O44: the two folds take the same step, `crcStep_eq_rounds`. -/
theorem lookupEqualsBitSerialDivision : Obligations.LookupEqualsBitSerialDivision := by
  intro B
  rw [computeCrc16Modbus, funext₂ crcStep_eq_rounds]

end Sys2Proof.Machine

/-! PROOFS. The hex codec (41_hex_codec.md): a formatted text place by place and parsed back, what a parse sees of its
text, the commands PARSE and FORMAT; and the pipeline FULLCMD (43_pipeline.md), which is built from the two. -/

namespace Sys2Proof.Machine

/-! ### A formatted text (R107, R108, R111) -/

/-- Settles O35: `parseHex_formatHex`, an induction over the bytes: stripping leaves their digits, and each pair of
digits is read back as its byte. -/
theorem parseOfFormatIsTheIdentity : Obligations.ParseOfFormatIsTheIdentity := fun _ B hp =>
  parseHex_formatHex hp B

/-- Each byte takes three places of the spaced pairs: the space, the high digit, the low digit. -/
theorem spacedPairs_getElem? {B : List Byte} {k : Nat} {b : Byte} (h : B[k]? = some b) :
    (spacedPairs B)[3 * k]? = some space ∧
    (spacedPairs B)[3 * k + 1]? = some (hexdigit (highNibble b)) ∧
    (spacedPairs B)[3 * k + 2]? = some (hexdigit (lowNibble b)) := by
  induction B generalizing k with
  | nil => simp at h
  | cons c B ih =>
    cases k with
    | zero =>
      obtain rfl : c = b := by simpa using h
      exact ⟨rfl, rfl, rfl⟩
    | succ k => exact ih (by simpa using h)

/-- A formatted text is the spaced pairs without the first space. -/
theorem formatHex_eq_tail (B : List Byte) : formatHex B = (spacedPairs B).tail := by
  cases B <;> rfl

theorem formatHex_getElem? (B : List Byte) (j : Nat) : (formatHex B)[j]? = (spacedPairs B)[j + 1]? := by
  rw [formatHex_eq_tail, List.getElem?_tail]

/-- Settles O38: the places of a formatted text are those of the spaced pairs, one further on; the space after a byte
stands in front of the next one. -/
theorem formattedTextLayout : Obligations.FormattedTextLayout := by
  refine ⟨rfl, fun B => ⟨fun _ => formatHex_length B, fun k b hb => ?_⟩⟩
  simp only [formatHex_getElem?]
  obtain ⟨-, hhigh, hlow⟩ := spacedPairs_getElem? hb
  refine ⟨hhigh, hlow, fun hk => ?_⟩
  obtain ⟨hspace, -, -⟩ := spacedPairs_getElem? (List.getElem?_eq_getElem hk)
  exact hspace

/-! ### What a parse sees of its text (R106) -/

/-- Settles O39: a parse depends on the stripped text alone, and whitespace put in is stripped again. -/
theorem parseIsBlindToWhitespace : Obligations.ParseIsBlindToWhitespace := fun ws s =>
  ⟨parseHex_congr (by rw [strip_strip]),
    fun s' w hw => parseHex_congr (by rw [strip_append, strip_append, strip_cons_of_ws hw])⟩

theorem parseHex_length {ws s B : List Byte} (h : parseHex ws s = .ok B) : B.length = (strip ws s).length / 2 := by
  rw [parsePairs_length (parsePairs_of_parseHex h)]
  omega

theorem parseHex_append {ws s t A B : List Byte} (hA : parseHex ws s = .ok A) (hB : parseHex ws t = .ok B) :
    parseHex ws (s ++ t) = .ok (A ++ B) := by
  apply parseHex_of_parsePairs
  rw [strip_append]
  exact parsePairs_append (parsePairs_of_parseHex hA) (parsePairs_of_parseHex hB)

/-- Settles O41: the length and the two parts that parse are the lemmas above; two odd numbers of digits make an even
one. -/
theorem parseOfAConcatenation : Obligations.ParseOfAConcatenation := by
  refine fun ws s t => ⟨fun A => parseHex_length, fun A B => parseHex_append, fun hs ht hdigits => ?_⟩
  refine ⟨parseHex_of_odd hs, parseHex_of_odd ht, parseHex_ok_iff.2 ?_⟩
  rw [strip_append]
  refine ⟨hdigits, ?_⟩
  rw [List.length_append]
  omega

theorem strip_of_blank {ws s : List Byte} (h : ∀ c ∈ s, c ∈ ws) : strip ws s = [] :=
  List.filter_eq_nil_iff.2 (by simpa [isWhitespace] using h)

/-- Settles O51: nothing is left of a blank text, so it parses as the empty one, and its full command is the same. -/
theorem fullCommandOfBlankText : Obligations.FullCommandOfBlankText := by
  intro ws s hblank
  have hparse : parseHex ws s = .ok [] :=
    (parseHex_congr (by rw [strip_of_blank hblank, strip_nil])).trans (parseHex_nil ws)
  refine ⟨hparse, ?_⟩
  rw [buildFullCommand_of_parseHex hparse, ← buildFullCommand_of_parseHex (parseHex_nil ws), buildFullCommand_nil]

/-! ### The outcomes of PARSE, FORMAT and FULLCMD (R105, R110, R143) -/

theorem exec_parse_of_ok {s : State} {B : List Byte} (h : parseHex s.params.ws s.input = .ok B) :
    exec .parse s = .next (deliver B s) := by
  rw [exec_eq_commandUpdate, commandUpdate, h]
  rfl

/-- Settles O17: PARSE delivers the parsed bytes, which fit. -/
theorem parseDeliversTheBytes : Obligations.ParseDeliversTheBytes := by
  intro s B hparse hfits
  rw [exec_parse_of_ok hparse, deliver_of_fits hfits]
  rfl

theorem exec_format (s : State) : exec .format s = .next (deliver (formatHex s.input) s) := rfl

/-- Settles O19: FORMAT delivers the text of the input bytes, of `3 * ILEN - 1` characters. -/
theorem formatDeliversTheText : Obligations.FormatDeliversTheText := by
  refine ⟨rfl, fun s => ?_⟩
  have hlen : (formatHex s.input).length = 3 * s.ilen - 1 := by rw [formatHex_length, input_length]
  rw [← hlen, exec_format]
  refine ⟨fun hfits => ?_, fun hfits => ?_⟩
  · rw [deliver_of_fits hfits]
    rfl
  · rw [deliver_of_not_fits hfits]
    rfl

theorem parseHex_of_nondigit {ws s : List Byte} (heven : (strip ws s).length % 2 = 0)
    (h : ∃ c ∈ strip ws s, hexval c = none) : parseHex ws s = .error .invalidDigit := by
  rw [parseHex_of_even heven, parsePairs_invalidDigit heven h]

theorem buildFullCommand_of_error {ws s : List Byte} {c : FormatCause} (h : parseHex ws s = .error c) :
    buildFullCommand ws s = .error c := by
  simp [buildFullCommand, h]

/-- A full command comes only from a text that parses. -/
theorem parseHex_of_buildFullCommand {ws s xs : List Byte} (h : buildFullCommand ws s = .ok xs) :
    ∃ B, parseHex ws s = .ok B ∧ xs = formatHex (B ++ wireBytes (computeCrc16Modbus B)) := by
  cases hparse : parseHex ws s with
  | error c => simp [buildFullCommand_of_error hparse] at h
  | ok B =>
    rw [buildFullCommand_of_parseHex hparse] at h
    cases h
    exact ⟨B, rfl, rfl⟩

@[simp] theorem wireBytes_length (c : Word) : (wireBytes c).length = 2 := rfl

/-- PARSE and FULLCMD both deliver a result `r` that is the parse's error, or has the stated number of cells `L` when
the text parses. -/
theorem exec_eq_deliverResult_of_text {s : State} {i : Instr} {L : Nat}
    (h : (i = .parse ∧ L = (strip s.params.ws s.input).length / 2) ∨
      (i = .fullcmd ∧ L = 3 * ((strip s.params.ws s.input).length / 2) + 5)) :
    ∃ r, exec i s = .next (deliverResult r s) ∧
      (∀ c, parseHex s.params.ws s.input = .error c → r = .error c) ∧
      (∀ B, parseHex s.params.ws s.input = .ok B → ∃ xs, r = .ok xs ∧ xs.length = L) := by
  rcases h with ⟨rfl, rfl⟩ | ⟨rfl, rfl⟩
  · exact ⟨_, rfl, fun c hc => hc, fun B hB => ⟨B, hB, parseHex_length hB⟩⟩
  · refine ⟨_, rfl, fun c => buildFullCommand_of_error, fun B hB => ⟨_, buildFullCommand_of_parseHex hB, ?_⟩⟩
    rw [formatHex_length, List.length_append, wireBytes_length, parseHex_length hB]
    omega

/-- Settles O18: the first two failures are the parse's, which `exec_eq_deliverResult_of_text` passes on, and the other
two cases are a delivery of `L` cells. -/
theorem firstFailingTextCheckIsReported : Obligations.FirstFailingTextCheckIsReported := by
  rintro s i L u rfl hi
  obtain ⟨r, hexec, herror, hok⟩ := exec_eq_deliverResult_of_text hi
  have hcells (heven : (strip s.params.ws s.input).length % 2 = 0)
      (hdigits : ∀ c ∈ strip s.params.ws s.input, hexval c ≠ none) : ∃ xs, r = .ok xs ∧ xs.length = L := by
    obtain ⟨B, hB⟩ := parseHex_ok_iff.2 ⟨hdigits, heven⟩
    exact hok B hB
  rw [hexec]
  refine ⟨fun hodd => ?_, fun heven hbad => ?_, fun heven hdigits hfits => ?_, fun heven hdigits hfits => ?_⟩
  · rw [herror _ (parseHex_of_odd hodd)]
    rfl
  · rw [herror _ (parseHex_of_nondigit heven hbad)]
    rfl
  · obtain ⟨xs, rfl, rfl⟩ := hcells heven hdigits
    rw [deliverResult, deliver_of_not_fits hfits]
    rfl
  · obtain ⟨xs, rfl, rfl⟩ := hcells heven hdigits
    rw [deliverResult, deliver_of_fits hfits]
    exact ⟨_, rfl, rfl, rfl, rfl⟩

/-! ### FULLCMD against the commands it is made of (R140, R145) -/

/-- A delivery that leaves `STATUS` 0x00 wrote the whole result. -/
theorem deliver_eq_of_status_ok {xs : List Byte} {s : State} (h : (deliver xs s).status = .ok) :
    fits s.params.ocap xs.length = true ∧ deliver xs s = writeOut xs s := by
  rcases deliver_cases xs s with hwritten | ⟨-, e⟩
  · exact hwritten
  · simp [e] at h

theorem deliverResult_eq_of_status_ok {r : Except FormatCause (List Byte)} {s : State}
    (h : (deliverResult r s).status = .ok) : ∃ xs, r = .ok xs ∧ deliverResult r s = writeOut xs s := by
  cases r with
  | error c => cases h
  | ok xs => exact ⟨xs, rfl, (deliver_eq_of_status_ok h).2⟩

theorem exec_fullcmd_of_ok {s : State} {B : List Byte} (h : parseHex s.params.ws s.input = .ok B) :
    exec .fullcmd s = .next (deliver (formatHex (B ++ wireBytes (computeCrc16Modbus B))) s) := by
  rw [exec_eq_commandUpdate, commandUpdate, buildFullCommand_of_parseHex h]
  rfl

/-- Settles O52: along the chain PARSE leaves the parsed bytes, CRC their checksum and WIRE its two bytes, so the last
FORMAT delivers FULLCMD's text, to a buffer of the same capacity. -/
theorem fullcmdEqualsItsComposition : Obligations.FullcmdEqualsItsComposition := by
  intro s s1 m1 s2 m2 s3 m3 s4 hparse hok1 hp1 hin1 hcrc hp2 harg hwire hp3 hin3 hformat hok4
  cases hparse
  obtain ⟨B, hB, hs1⟩ := deliverResult_eq_of_status_ok hok1
  rw [hs1] at hp1 hin1 hin3
  cases hcrc
  cases hwire
  have harg2 : m2.arg = computeCrc16Modbus B := by rw [harg, writeRes_res, hin1, writeOut_out]
  have hin4 : m3.input = B ++ wireBytes (computeCrc16Modbus B) := by
    rw [hin3, writeOut_out, writeOut_out, harg2]
  have hparams : m3.params = s.params := by
    rw [hp3, writeOut_params, hp2, writeRes_params, hp1, writeOut_params]
  cases hformat
  obtain ⟨hfits, hs4⟩ := deliver_eq_of_status_ok hok4
  rw [hin4, hparams] at hfits
  refine ⟨_, exec_fullcmd_of_ok hB, ?_⟩
  rw [deliver_of_fits hfits, hs4, hin4]
  exact ⟨rfl, rfl, rfl⟩

/-! ### The checksum of FULLCMD's output (R125, R140) -/

/-- A 16-bit value's own bytes, low byte first, bring the register from it to zero: the first step shifts the high byte
down, and the second takes the byte that is left. -/
theorem foldl_crcStep_wireBytes (c : Word) : (wireBytes c).foldl crcStep c = 0x0000 := by
  have hlast : crcStep ((highByte c).setWidth 16) (highByte c) = 0x0000 := by
    simpa using crcStep_lowByte ((highByte c).setWidth 16)
  calc (wireBytes c).foldl crcStep c
      = crcStep (crcStep c (lowByte c)) (highByte c) := rfl
    _ = 0x0000 := by rw [crcStep_lowByte, hlast]

/-- The checksum of a frame followed by its own checksum is zero. -/
theorem computeCrc16Modbus_append_wireBytes (B : List Byte) :
    computeCrc16Modbus (B ++ wireBytes (computeCrc16Modbus B)) = 0x0000 := by
  rw [computeCrc16Modbus_append, foldl_crcStep_wireBytes]

/-- Settles O53: the text delivered is the format of the parsed bytes followed by their checksum, and parses back to
these. -/
theorem fullcmdOutputChecksToZero : Obligations.FullcmdOutputChecksToZero := by
  intro s t hp hexec hok
  cases hexec
  obtain ⟨xs, hbuild, ht⟩ := deliverResult_eq_of_status_ok hok
  obtain ⟨A, hA, rfl⟩ := parseHex_of_buildFullCommand hbuild
  rw [ht, writeOut_out]
  exact ⟨A, _, hA, parseHex_formatHex hp _, List.take_left, by simp, computeCrc16Modbus_append_wireBytes A⟩

end Sys2Proof.Machine

/-! PROOFS. The CRC engine (42_crc_engine.md): the checksum and the values it takes, the wire form, the swapped form, and
the commands CRC, WIRE and SWAP. -/

namespace Sys2Proof.Machine

/-! ### The checksum (R120 to R125) -/

theorem lowByte_crcStep (R : Word) (b : Byte) :
    lowByte (crcStep R b) = highByte R ^^^ lowByte (readT (lowByte R ^^^ b)) := by
  rw [crcStep_eq, shift_eq_highByte, lowByte_xor, lowByte_setWidth]

theorem highByte_crcStep (R : Word) (b : Byte) :
    highByte (crcStep R b) = highByte (readT (lowByte R ^^^ b)) := by
  rw [crcStep_eq, shift_eq_highByte, highByte_xor, highByte_setWidth, BitVec.zero_xor]

/-- Only cell 0 of `T` has a zero high byte. -/
theorem eq_zero_of_highByte_readT_eq_zero : ∀ i : Byte, highByte (readT i) = 0#8 → i = 0#8 := by decide

/-- The high bytes of the table are pairwise different by its linearity, so they are all the 256 bytes. -/
theorem highByte_readT_surjective : Function.Surjective fun i : Byte => highByte (readT i) := by
  refine Finite.surjective_of_injective fun a b (h : highByte (readT a) = highByte (readT b)) => ?_
  refine BitVec.xor_eq_zero_iff.1 (eq_zero_of_highByte_readT_eq_zero _ ?_)
  rw [readT_xor, highByte_xor, h, BitVec.xor_self]

/-- Two bytes bring the register from any value to any other: the second selects the cell with the high byte wanted, and
the first has put into the register's high byte what that cell's low byte lacks. -/
theorem exists_two_crcSteps (R v : Word) : ∃ b c : Byte, crcStep (crcStep R b) c = v := by
  obtain ⟨j, hj : highByte (readT j) = highByte v⟩ := highByte_readT_surjective (highByte v)
  obtain ⟨i, hi : highByte (readT i) = lowByte v ^^^ lowByte (readT j)⟩ :=
    highByte_readT_surjective (lowByte v ^^^ lowByte (readT j))
  refine ⟨lowByte R ^^^ i, lowByte (crcStep R (lowByte R ^^^ i)) ^^^ j, word_ext ?_ ?_⟩
  · rw [highByte_crcStep, xor_cancel_left, hj]
  · rw [lowByte_crcStep, xor_cancel_left, highByte_crcStep, xor_cancel_left, hi,
      xor_cancel_right]

/-- Settles O46: two bytes are enough, from the starting value 0xFFFF. -/
theorem everyValueIsAChecksum : Obligations.EveryValueIsAChecksum := by
  intro v
  obtain ⟨b, c, h⟩ := exists_two_crcSteps 0xFFFF v
  exact ⟨[b, c], h⟩

/-- Settles O45: `computeCrc16Modbus_append_wireBytes`; the frame `[0x00]` has checksum 0x40BF, and followed by 0x40 and
0xBF it does not check to zero. -/
theorem frameWithItsCrcHasCrcZero : Obligations.FrameWithItsCrcHasCrcZero :=
  ⟨computeCrc16Modbus_append_wireBytes, [0x00], by decide⟩

/-- Settles O43: `crcStep_eq`, and the fold over an appended byte. -/
theorem checksumIsIncremental : Obligations.ChecksumIsIncremental :=
  ⟨crcStep_eq, computeCrc16Modbus_nil, fun B b => computeCrc16Modbus_append B [b]⟩

/-- Settles O20: CRC makes its update of the state, which writes `RES`. -/
theorem crcWritesTheChecksum : Obligations.CrcWritesTheChecksum :=
  ⟨decodeByte_encodeByte .crc, exec_eq_commandUpdate .crc⟩

/-! ### The wire form (R126, R127) -/

/-- Settles O47: the two bytes joined again are the value, `joinBytes_high_low`. -/
theorem wireFormLosesNothing : Obligations.WireFormLosesNothing := fun c => ⟨rfl, (joinBytes_high_low c).symm⟩

/-- Settles O21: WIRE makes its update of the state, which writes the wire bytes to `OUT`. -/
theorem wireDeliversLowByteFirst : Obligations.WireDeliversLowByteFirst :=
  ⟨decodeByte_encodeByte .wire, exec_eq_commandUpdate .wire⟩

/-! ### The swapped form (R129 to R131) -/

theorem swapped_eq_joinBytes (c : Word) : swapped c = joinBytes (lowByte c) (highByte c) :=
  word_ext (by rw [highByte_swapped, highByte_joinBytes]) (by rw [lowByte_swapped, lowByte_joinBytes])

theorem swapped_swapped (c : Word) : swapped (swapped c) = c :=
  word_ext (by rw [highByte_swapped, lowByte_swapped]) (by rw [lowByte_swapped, highByte_swapped])

theorem swapped_eq_self_iff (c : Word) : swapped c = c ↔ highByte c = lowByte c := by
  constructor
  · intro h
    rw [← lowByte_swapped, h]
  · intro h
    exact word_ext (by rw [highByte_swapped, h]) (by rw [lowByte_swapped, h])

theorem highByte_eq_lowByte_iff (c : Word) : highByte c = lowByte c ↔ ∃ b : Byte, c = joinBytes b b := by
  constructor
  · intro h
    exact ⟨highByte c, word_ext (highByte_joinBytes _ _).symm (by rw [lowByte_joinBytes, h])⟩
  · rintro ⟨b, rfl⟩
    rw [highByte_joinBytes, lowByte_joinBytes]

theorem joinBytes_self_injective (a b : Byte) (h : joinBytes a a = joinBytes b b) : a = b := by
  rw [← highByte_joinBytes a a, h, highByte_joinBytes]

/-- Settles O48: the bits are `swapped_getLsbD`, and everything else follows from the two bytes of the swapped form. -/
theorem swappedFormProperties : Obligations.SwappedFormProperties := fun c =>
  ⟨swapped_eq_joinBytes c, swapped_swapped c, fun _ => swapped_getLsbD c, swapped_eq_self_iff c,
    (swapped_eq_self_iff c).trans (highByte_eq_lowByte_iff c), joinBytes_self_injective⟩

/-- Joining two bytes by a shift and an OR is concatenating them. -/
theorem joinBytes_eq_append (h l : Byte) : joinBytes h l = h ++ l := by
  apply word_ext
  · rw [highByte_joinBytes, highByte, BitVec.extractLsb'_append_eq_left]
  · rw [lowByte_joinBytes, lowByte, BitVec.extractLsb'_append_eq_right]

/-- Settles O22: SWAP makes its update of the state, which writes the swapped form to `RES`: the low byte on top of the
high byte. -/
theorem swapExchangesTheBytes : Obligations.SwapExchangesTheBytes := by
  refine ⟨decodeByte_encodeByte .swap, fun s => ?_⟩
  rw [exec_eq_commandUpdate, commandUpdate, swapped_eq_joinBytes, joinBytes_eq_append]
  rfl

end Sys2Proof.Machine

/-! PROOFS. The pipeline FULLCMD (43_pipeline.md): the state it leaves when the text parses and when it does not, and the
parts of its text. -/

namespace Sys2Proof.Machine

/-! ### FULLCMD on a text that parses (R140, R143) -/

/-- A full command's text has three characters for each parsed byte and five for the checksum. -/
theorem formatHex_append_wireBytes_length (B : List Byte) (c : Word) :
    (formatHex (B ++ wireBytes c)).length = 3 * B.length + 5 := by
  rw [formatHex_length, List.length_append, wireBytes_length]
  omega

/-- Settles O23: FULLCMD delivers the text of the parsed bytes and their wire form, which fits. -/
theorem fullcmdDeliversFrameWithCrc : Obligations.FullcmdDeliversFrameWithCrc := by
  intro s B hparse hfits
  rw [← formatHex_append_wireBytes_length B (computeCrc16Modbus B)] at hfits
  rw [exec_fullcmd_of_ok hparse, deliver_of_fits hfits]
  rfl

/-! ### The parts of the full command text (R144) -/

/-- The text of two sequences one after the other, neither of them empty, is their texts joined by a space. -/
theorem formatHex_append {A B : List Byte} (hA : A ≠ []) (hB : B ≠ []) :
    formatHex (A ++ B) = formatHex A ++ space :: formatHex B := by
  obtain ⟨a, A, rfl⟩ := List.exists_cons_of_ne_nil hA
  obtain ⟨b, B, rfl⟩ := List.exists_cons_of_ne_nil hB
  simp [formatHex, spacedPairs_append, spacedPairs]

theorem wireBytes_ne_nil (c : Word) : wireBytes c ≠ [] := List.cons_ne_nil _ _

theorem formatHex_wireBytes (c : Word) :
    formatHex (wireBytes c) = hex2 (lowByte c) ++ space :: hex2 (highByte c) := rfl

/-- Settles O50: the text is that of the parsed bytes, if there are any, joined by a space to that of the wire form. -/
theorem fullCommandTextLayout : Obligations.FullCommandTextLayout := by
  intro ws s B txt hparse hbuild
  rw [buildFullCommand_of_parseHex hparse] at hbuild
  cases hbuild
  refine ⟨formatHex_append_wireBytes_length B _, ?_⟩
  split
  · next hnil =>
    subst hnil
    exact formatHex_wireBytes _
  · next hne =>
    rw [formatHex_append hne (wireBytes_ne_nil _), formatHex_wireBytes, List.append_assoc]
    rfl

/-! ### FULLCMD on a text that does not parse (R141) -/

/-- The stages after the parse raise no error of their own. -/
theorem buildFullCommand_eq_error_iff {ws s : List Byte} {c : FormatCause} :
    buildFullCommand ws s = .error c ↔ parseHex ws s = .error c := by
  cases hparse : parseHex ws s with
  | error d => rw [buildFullCommand_of_error hparse]
  | ok B => simp [buildFullCommand_of_parseHex hparse]

/-- Settles O24: `buildFullCommand_eq_error_iff`, so FULLCMD and PARSE both make the update that raises the parse's
error. -/
theorem fullcmdPropagatesTheParseError : Obligations.FullcmdPropagatesTheParseError := by
  refine ⟨fun _ _ _ => buildFullCommand_eq_error_iff, fun s c hparse => ?_⟩
  have hparseExec : exec .parse s = .next (raiseError (.invalidFormat c) s) := by
    rw [exec_eq_commandUpdate, commandUpdate, hparse]
    rfl
  have hfullcmdExec : exec .fullcmd s = .next (raiseError (.invalidFormat c) s) := by
    rw [exec_eq_commandUpdate, commandUpdate, buildFullCommand_of_error hparse]
    rfl
  exact ⟨hfullcmdExec.trans hparseExec.symm, hfullcmdExec⟩

end Sys2Proof.Machine

/-! PROOFS. Errors, idleness and several engines (60_exceptions.md): what a failing command leaves, the idle step,
and the independence of the engines of a system. -/

namespace Sys2Proof.Machine

/-! ### A failing command (R150, R159) -/

/-- A command whose `STATUS` is not 0x00 has raised an error: it has not written `OUT` or `RES`. -/
theorem exec_raiseError_of_word_ne_zero {i : Instr} {s t : State} (h : exec i s = .next t)
    (hw : t.status.word ≠ 0x00) : (i = .parse ∨ i = .format ∨ i = .fullcmd) ∧ ∃ e, t = raiseError e s := by
  rcases exec_cases h with ⟨xs, rfl, -⟩ | ⟨v, rfl, -⟩ | ⟨e, rfl, hi, -⟩
  · exact absurd word_ok hw
  · exact absurd word_ok hw
  · exact ⟨hi, e, rfl⟩

/-- Settles O28: a failing command has raised an error, and raising one empties `OUT` and sets `STATUS`, no more. -/
theorem failureHasNoPartialEffect : Obligations.FailureHasNoPartialEffect := by
  intro i s t h hw
  obtain ⟨hi, e, rfl⟩ := exec_raiseError_of_word_ne_zero h hw
  exact ⟨hi, rfl, rfl⟩

/-! ### The idle engine (R160, R167) -/

theorem step_of_script_nil {s : State} (h : s.script = []) : step s = .next s := by
  simp [step, h]

/-- Settles O6: `step_of_script_nil`. -/
theorem idleEngineKeepsItsState : Obligations.IdleEngineKeepsItsState := fun _ => step_of_script_nil

/-! ### Several engines (R168) -/

theorem System.step_of_step {k : Nat} {sys : System} {s t : State} (hs : sys[k]? = some s)
    (ht : Sys2Proof.Machine.step s = .next t) : System.step k sys = .next (sys.set k t) := by
  simp [System.step, hs, ht]

/-- A step of one engine leaves the state of every other engine alone. -/
theorem System.getElem?_of_step_of_ne {j k : Nat} {sys a : System} (hjk : j ≠ k)
    (h : System.step j sys = .next a) : a[k]? = sys[k]? := by
  obtain ⟨s, t, -, -, rfl⟩ := System.step_cases h
  exact List.getElem?_set_ne hjk

/-- Settles O58: each engine finds its own state untouched by the other's step, so it takes the same step in either
order, and two writes at different places of the system commute. -/
theorem enginesDoNotDisturbEachOther : Obligations.EnginesDoNotDisturbEachOther := by
  intro sys a ab b j k hjk hj hk hb
  have hak : a[k]? = sys[k]? := System.getElem?_of_step_of_ne hjk hj
  have hbj : b[j]? = sys[j]? := System.getElem?_of_step_of_ne hjk.symm hb
  obtain ⟨s, t, hs, ht, rfl⟩ := System.step_cases hj
  obtain ⟨u, v, hu, hv, rfl⟩ := System.step_cases hb
  have hab : System.step k (sys.set j t) = .next ((sys.set j t).set k v) :=
    System.step_of_step (hak.trans hu) hv
  have hba : System.step j (sys.set k v) = .next ((sys.set k v).set j t) :=
    System.step_of_step (hbj.trans hs) ht
  refine ⟨?_, hak⟩
  calc System.step j (sys.set k v)
      = .next ((sys.set j t).set k v) := by rw [hba, List.set_comm _ _ hjk]
    _ = .next ab := hab.symm.trans hk

end Sys2Proof.Machine

/-! PROOFS. Reset and the end of every command (70_reset_and_hazards.md). -/

namespace Sys2Proof.Machine

/-- A step on the reset event builds the next state from the parameters, the reset count and the outside world alone
(R180). -/
theorem step_of_reset {s : State} {rest : List ScriptLine} (hs : s.script = .reset :: rest) :
    step s = .next (State.resetWith s.params (s.resets + 1) rest s.replies) := by
  rw [step_of_script hs]
  rfl

/-- Settles O7: by `step_of_reset` a reset gives the values of `State.resetWith`, and the four parts of the state it
depends on are the four on which the two states agree. -/
theorem nothingSurvivesAReset : Obligations.NothingSurvivesAReset := by
  intro s s' rest hs
  refine ⟨⟨_, step_of_reset hs, rfl, rfl, word_ok, rfl, rfl⟩, fun hscript hparams hreplies hresets => ?_⟩
  rw [step_of_reset hs, step_of_reset (hscript.trans hs), hparams, hreplies, hresets]

/-- Settles O25: every command is an update of the state, its errors included (R159, R190). -/
theorem everyCommandEnds : Obligations.EveryCommandEnds := fun i s => ⟨_, exec_eq_commandUpdate i s⟩

end Sys2Proof.Machine
